-- ==== Sys2Proof/Word.lean ====
section
/-! DEFINITION. The word types of the block (00_scope.md R7, R8): bit vectors `v[N-1:0]`, bit 0 the least significant.
`uint_N` is `BitVec.toNat`, `sint_N` is `BitVec.toInt`, `+_N` and `-_N` are `BitVec` addition and subtraction
(R9, R10). -/

namespace Sys2Proof

/-- `BitsN` for N = 8: the operation word (R7 `OP_W`). -/
abbrev Bits8 := BitVec 8
/-- `BitsN` for N = 32: a single-precision operand, its integer view and its result (R7 `W32`). -/
abbrev Bits32 := BitVec 32
/-- `BitsN` for N = 64: a double-precision pattern, and the operand and result buses (R7 `W64`, `DATA_W`). -/
abbrev Bits64 := BitVec 64

/-- One request, R25: the operation word `OP` and the operand `Y`. Every request has this one length (R67). -/
structure Request where
  op : Bits8
  y : Bits64
  deriving DecidableEq, Repr

end Sys2Proof
end

