-- ==== Sys2Proof/Config.lean ====
section
/-! DEFINITION. The implementation parameters of 00_scope.md R7 that are no magic constant (those are the constant
ROM, Machine/Rom.lean), and the values the spec leaves OPEN. `ROUND` is roundTiesToEven, built into Machine/Float.lean;
`HAS_REFINE` is true: the refinement stage is present (R110). -/

namespace Sys2Proof

/-- `DIR` (30_encoding.md R60, R64): square root (`x^0.5`) or inverse square root (`x^-0.5`). -/
inductive Dir where
  | sqrt
  | inv
  deriving DecidableEq, Repr

/-- `PREC` (R60, R64): binary32 or binary64. -/
inductive Prec where
  | p32
  | p64
  deriving DecidableEq, Repr

namespace Config

/-- `NR_MAX`, the largest refinement count accepted (R7, D13). -/
def nrMax : Nat := 2

/-- FREE VALUE: the choice behind the OPEN parameter `NAN_RESULT_32(dir, y, g)` (R7, R115, D11). It is only ever used
through `Machine.nanResult32`, which makes it a NaN encoding. Log 6; safe. -/
opaque nanChoice32 : Dir → Bits32 → Bits32 → Bits32

/-- FREE VALUE: the choice behind the OPEN parameter `NAN_RESULT_64(dir, y, g)` (R7, R115, D11). It is only ever used
through `Machine.nanResult64`, which makes it a NaN encoding. Log 6; safe. -/
opaque nanChoice64 : Dir → Bits64 → Bits64 → Bits64

end Config
end Sys2Proof
end

