-- ==== Sys2Proof/Syntax.lean ====
section
/-! DEFINITION. The instructions: one constructor per row of spec/opcode_table.json (30_encoding.md R63), in its order.
An instruction is a whole request with a defined operation word; its operand is the whole bus value `Y`, since R80's
`exec` takes `Y : Bits64` and selects the operand itself (R62). Log 8. -/

namespace Sys2Proof

/-- The twelve operations of R63. -/
inductive Instr where
  /-- `FRSQRTA.S` (R90): inverse square root seed, single precision. -/
  | frsqrtaS (y : Bits64)
  /-- `FSQRTA.S` (R91): square root seed, single precision. -/
  | fsqrtaS (y : Bits64)
  /-- `FRSQRTA.D` (R92): inverse square root seed, double precision. -/
  | frsqrtaD (y : Bits64)
  /-- `FSQRTA.D` (R93): square root seed, double precision. -/
  | fsqrtaD (y : Bits64)
  /-- `FRSQRTA.S.NR1` (R90 with k = 1). -/
  | frsqrtaSNr1 (y : Bits64)
  /-- `FSQRTA.S.NR1` (R91 with k = 1). -/
  | fsqrtaSNr1 (y : Bits64)
  /-- `FRSQRTA.D.NR1` (R92 with k = 1). -/
  | frsqrtaDNr1 (y : Bits64)
  /-- `FSQRTA.D.NR1` (R93 with k = 1). -/
  | fsqrtaDNr1 (y : Bits64)
  /-- `FRSQRTA.S.NR2` (R90 with k = 2). -/
  | frsqrtaSNr2 (y : Bits64)
  /-- `FSQRTA.S.NR2` (R91 with k = 2). -/
  | fsqrtaSNr2 (y : Bits64)
  /-- `FRSQRTA.D.NR2` (R92 with k = 2). -/
  | frsqrtaDNr2 (y : Bits64)
  /-- `FSQRTA.D.NR2` (R93 with k = 2). -/
  | fsqrtaDNr2 (y : Bits64)
  deriving DecidableEq, Repr

namespace Instr

/-- The `DIR` column of R63. -/
def dir : Instr → Dir
  | .frsqrtaS _ | .frsqrtaD _ | .frsqrtaSNr1 _ | .frsqrtaDNr1 _ | .frsqrtaSNr2 _ | .frsqrtaDNr2 _ => .inv
  | .fsqrtaS _ | .fsqrtaD _ | .fsqrtaSNr1 _ | .fsqrtaDNr1 _ | .fsqrtaSNr2 _ | .fsqrtaDNr2 _ => .sqrt

/-- The `PREC` column of R63. -/
def prec : Instr → Prec
  | .frsqrtaS _ | .fsqrtaS _ | .frsqrtaSNr1 _ | .fsqrtaSNr1 _ | .frsqrtaSNr2 _ | .fsqrtaSNr2 _ => .p32
  | .frsqrtaD _ | .fsqrtaD _ | .frsqrtaDNr1 _ | .fsqrtaDNr1 _ | .frsqrtaDNr2 _ | .fsqrtaDNr2 _ => .p64

/-- The `NR` column of R63. -/
def nr : Instr → Nat
  | .frsqrtaS _ | .fsqrtaS _ | .frsqrtaD _ | .fsqrtaD _ => 0
  | .frsqrtaSNr1 _ | .fsqrtaSNr1 _ | .frsqrtaDNr1 _ | .fsqrtaDNr1 _ => 1
  | .frsqrtaSNr2 _ | .fsqrtaSNr2 _ | .frsqrtaDNr2 _ | .fsqrtaDNr2 _ => 2

/-- The operand bus value `Y` of the request. -/
def y : Instr → Bits64
  | .frsqrtaS y | .fsqrtaS y | .frsqrtaD y | .fsqrtaD y
  | .frsqrtaSNr1 y | .fsqrtaSNr1 y | .frsqrtaDNr1 y | .fsqrtaDNr1 y
  | .frsqrtaSNr2 y | .fsqrtaSNr2 y | .frsqrtaDNr2 y | .fsqrtaDNr2 y => y

end Instr
end Sys2Proof
end

