-- ==== Sys2Proof/WellFormed.lean ====
section
/-! DEFINITION. When an operation word is a defined one (30_encoding.md R60, R65): its reserved bits are zero and its
refinement count is not the reserved one. The operand is never a reason to refuse (R62, R88), so a request is well
formed when its word is, and every term of `Instr` is well formed: `Instr` has no constructor for a reserved word. -/

namespace Sys2Proof

/-- R60: `OP[7:4]` (`RSV`) must be `0000`. -/
def rsvZero (op : Bits8) : Bool := op.extractLsb' 4 4 == 0#4

/-- R60, R64: `OP[3:2]` (`NR`) is at most `NR_MAX`. -/
def nrLegal (op : Bits8) : Bool := decide ((op.extractLsb' 2 2).toNat ≤ Config.nrMax)

/-- R65: the word is one of the defined ones. -/
def opDefined (op : Bits8) : Bool := rsvZero op && nrLegal op

/-- A request is well formed when its operation word is a defined one. -/
def Request.wellFormed (q : Request) : Bool := opDefined q.op

end Sys2Proof
end

