-- ==== Sys2Proof/Decode.lean ====
section
/-! DEFINITION. Decoding of a request (30_encoding.md R62, R64), total on any operation word and rejecting a reserved
one by name, and the encoder, written word by word from R63's table. -/

namespace Sys2Proof

/-- Why a request has no meaning: R66's `ReservedOp(OP)`, the only reason there is (R141, R142). -/
inductive Reject where
  | reservedOp (op : Bits8)
  deriving DecidableEq, Repr

/-- What `decode` of R64 reads from a defined word. -/
structure OpFields where
  dir : Dir
  prec : Prec
  nr : Nat
  deriving DecidableEq, Repr

/-- R64's `decode`: `none` is the reserved words. -/
def decodeOp (op : Bits8) : Option OpFields :=
  if op.extractLsb' 4 4 ≠ 0#4 then none
  else
    let nr := (op.extractLsb' 2 2).toNat
    if nr > Config.nrMax then none
    else some
      { dir := if op.getLsbD 0 then .inv else .sqrt
        prec := if op.getLsbD 1 then .p64 else .p32
        nr := nr }

/-- The operation of R63 with these fields, on this operand; `none` where R63 has no row. -/
def instrOf : Dir → Prec → Nat → Bits64 → Option Instr
  | .inv, .p32, 0, y => some (.frsqrtaS y)
  | .sqrt, .p32, 0, y => some (.fsqrtaS y)
  | .inv, .p64, 0, y => some (.frsqrtaD y)
  | .sqrt, .p64, 0, y => some (.fsqrtaD y)
  | .inv, .p32, 1, y => some (.frsqrtaSNr1 y)
  | .sqrt, .p32, 1, y => some (.fsqrtaSNr1 y)
  | .inv, .p64, 1, y => some (.frsqrtaDNr1 y)
  | .sqrt, .p64, 1, y => some (.fsqrtaDNr1 y)
  | .inv, .p32, 2, y => some (.frsqrtaSNr2 y)
  | .sqrt, .p32, 2, y => some (.fsqrtaSNr2 y)
  | .inv, .p64, 2, y => some (.frsqrtaDNr2 y)
  | .sqrt, .p64, 2, y => some (.fsqrtaDNr2 y)
  | _, _, _ + 3, _ => none

/-- The instruction a request is, or R66's reason to refuse it. The operand never matters (R62). -/
def decode (q : Request) : Except Reject Instr :=
  match decodeOp q.op with
  | none => .error (.reservedOp q.op)
  | some f =>
    match instrOf f.dir f.prec f.nr q.y with
    | none => .error (.reservedOp q.op)
    | some i => .ok i

/-- The request an instruction is: R63's `OP` column, and the operand as it stands. -/
def encode : Instr → Request
  | .frsqrtaS y => ⟨0x01#8, y⟩
  | .fsqrtaS y => ⟨0x00#8, y⟩
  | .frsqrtaD y => ⟨0x03#8, y⟩
  | .fsqrtaD y => ⟨0x02#8, y⟩
  | .frsqrtaSNr1 y => ⟨0x05#8, y⟩
  | .fsqrtaSNr1 y => ⟨0x04#8, y⟩
  | .frsqrtaDNr1 y => ⟨0x07#8, y⟩
  | .fsqrtaDNr1 y => ⟨0x06#8, y⟩
  | .frsqrtaSNr2 y => ⟨0x09#8, y⟩
  | .fsqrtaSNr2 y => ⟨0x08#8, y⟩
  | .frsqrtaDNr2 y => ⟨0x0B#8, y⟩
  | .fsqrtaDNr2 y => ⟨0x0A#8, y⟩

/-- A request as one number: `OP` in bits 7..0, as the opcode table numbers it, and `Y` in bits 71..8. Log 8. -/
def Request.word (q : Request) : Nat := q.op.toNat + 2 ^ 8 * q.y.toNat

/-- The request whose number is `w`, of which only the low `nbits` bits are given and the rest are zero. Log 8. -/
def requestOfWord (nbits w : Nat) : Request :=
  let w := w % 2 ^ nbits
  { op := BitVec.ofNat 8 w, y := BitVec.ofNat 64 (w / 2 ^ 8) }

/-- The instruction the decoder reads from a word of the opcode table, operand bits the table does not give being
zero. -/
def decodeTableWord (nbits w : Nat) : Option Instr := (decode (requestOfWord nbits w)).toOption

end Sys2Proof
end

