-- ==== Sys2Proof/Machine/State.lean ====
section
/-! DEFINITION. The state of one instance of the block (10_state.md), what a run keeps (60_exceptions.md R141,
70_reset_and_hazards.md R165), and the host interactions still to come (R164). -/

namespace Sys2Proof.Machine

/-- No step of this block ends in a fault: "The block raises no synchronous exception" (R140), and there are no traps
(R144). The type has no constructor, so the model cannot fault. -/
inductive Fault where
  deriving DecidableEq, Repr

/-- Why the MODEL gives an instruction no meaning. R66's refusal of a reserved word is not this: there the block goes
on, so it is a next state (log 4). -/
inductive Refusal where
  /-- Raised by `exec` alone, for an instruction with no meaning yet; no arm uses it now. Safe. -/
  | notModelled (mnemonic : String)
  deriving DecidableEq, Repr

/-- The constant ROM of R27. A type with one value: the four constants are hardwired, "no operation writes them", and
"they hold no other value at any time". What they hold is in Machine/Rom.lean. Log 9. -/
structure ConstantRom where
  deriving DecidableEq, Repr

/-- The outcome of one request (R142, R165): the response `R`, or R66's refusal, which gives no result. -/
inductive ReqOutcome where
  | responded (r : Bits64)
  | refused (why : Reject)
  deriving DecidableEq, Repr

/-- One row of R164's table, or a step in which nothing happens. -/
inductive Interaction where
  /-- The host presents `OP` and `Y`; the block accepts them when it is idle (R29, R68 `accept`). -/
  | request (q : Request)
  /-- The host sends nothing and the block completes the pending request (R68 `complete`). -/
  | completion
  /-- The host asserts reset (R160). -/
  | reset
  /-- Nothing happens: one unit of the "finite, unbounded delay" of a completion (R164, R166). -/
  | delay
  deriving DecidableEq, Repr

/-- One instance of the block and its run so far. -/
structure State where
  /-- The constant ROM (R27). -/
  rom : ConstantRom
  /-- The transaction slot: the request accepted and not yet answered; `none` when idle (R29). -/
  pending : Option Request
  /-- The response bus `R` (R25): the value the block is responding with, only in the state right after the
  completion that drives it. Outside a response the bus has no architectural value (R25, R30), and the model holds
  none. Log 2; safe. -/
  rBus : Option Bits64
  /-- R141's refusal mark, "kept for the rest of the run". -/
  refusalMark : Bool
  /-- R165's observation of the run: each answered request with its outcome, oldest first. -/
  observation : List (Request × ReqOutcome)
  /-- THE MODEL'S OWN: the host interactions to come, next first (R164). Log 1. -/
  inputs : List Interaction
  deriving DecidableEq, Repr

namespace State

/-- The request bus, `OP` and `Y` (R25): what the host is presenting, if anything. -/
def requestBus (s : State) : Option Request :=
  match s.inputs with
  | .request q :: _ => some q
  | _ => none

/-- The state right after reset (R30, R160), of a run that has not begun: idle, no bus value, no refusal mark, nothing
observed, and no host interaction in sight. Log 3. -/
def reset : State :=
  { rom := {}
    pending := none
    rBus := none
    refusalMark := false
    observation := []
    inputs := [] }

end State
end Sys2Proof.Machine
end

