-- ==== Sys2Proof/Machine/Rom.lean ====
section
/-! DEFINITION. The contents of the constant ROM (10_state.md R27, values from 00_scope.md R7). Read-only: there is no
operation that writes them. -/

namespace Sys2Proof.Machine

/-- `MAGIC_INV_SQRT_32` = 1 597 488 759. -/
def ConstantRom.magicInvSqrt32 (_ : ConstantRom) : Bits32 := 0x5F37BE77#32
/-- `MAGIC_SQRT_32` = 532 496 253. -/
def ConstantRom.magicSqrt32 (_ : ConstantRom) : Bits32 := 0x1FBD3F7D#32
/-- `MAGIC_INV_SQRT_64` = 6 910 483 146 024 060 928. -/
def ConstantRom.magicInvSqrt64 (_ : ConstantRom) : Bits64 := 0x5FE6F7CED9168800#64
/-- `MAGIC_SQRT_64` = 2 303 494 382 008 020 224. -/
def ConstantRom.magicSqrt64 (_ : ConstantRom) : Bits64 := 0x1FF7A7EF9DB22D00#64

end Sys2Proof.Machine
end

