-- ==== Sys2Proof/Machine/Operands.lean ====
section
/-! DEFINITION. Operand assembly and result placement (30_encoding.md R62, 20_memory.md R43). The operation has one
explicit operand; there are no immediates, no registers and no memory operands. -/

namespace Sys2Proof.Machine

/-- R62, `PREC = 0`: `y := Y[31:0]`; `Y[63:32]` is ignored. -/
def operand32 (Y : Bits64) : Bits32 := Y.extractLsb' 0 32

/-- R62, `PREC = 1`: `y := Y[63:0]`. -/
def operand64 (Y : Bits64) : Bits64 := Y

/-- R80, R43: a single-precision result on the bus, `zext_64(g)`, so that `R[63:32] = 0`. -/
def result32 (g : Bits32) : Bits64 := g.setWidth 64

/-- R80: a double-precision result on the bus. -/
def result64 (g : Bits64) : Bits64 := g

end Sys2Proof.Machine
end

