-- ==== Sys2Proof/Machine/Float.lean ====
section
/-! DEFINITION. IEEE-754 binary32 and binary64 (00_scope.md R11, R12, R15) and the four operations of the refinement
stage (41_refine.md R111 to R113): the exact result, rounded once to the format with roundTiesToEven, with gradual
underflow. `Format.datum` and `Format.enc` are R11's `F_P` and `enc_P`, inverse to each other on every encoding, NaNs
included. The operations compute on the value of a datum, `FloatVal`, in which a NaN is only a NaN (R115). -/

namespace Sys2Proof.Machine

/-- A binary interchange format laid out in `w` bits: `sign ++ exponent ++ fraction` (R15), with R12's two constants. -/
structure Format (w : Nat) where
  expBits : Nat
  fracBits : Nat
  /-- The encoding of `0.5`. -/
  half : BitVec w
  /-- The encoding of `1.5`. -/
  oneAndHalf : BitVec w

/-- binary32 (R15, R12). -/
def binary32 : Format 32 := ⟨8, 23, 0x3F000000#32, 0x3FC00000#32⟩
/-- binary64 (R15, R12). -/
def binary64 : Format 64 := ⟨11, 52, 0x3FE0000000000000#64, 0x3FF8000000000000#64⟩

/-- A datum of a format (R11, R15): a NaN with its sign and its nonzero fraction field, an infinity, or the finite number
`(-1)^neg * m * 2^e`. -/
inductive Datum where
  | nan (neg : Bool) (frac : Nat)
  | inf (neg : Bool)
  | fin (neg : Bool) (m : Nat) (e : Int)
  deriving DecidableEq, Repr

/-- The value of a datum, as an operation reads it and gives it. A finite one is `(-1)^neg * m * 2^e`. A NaN has no sign or payload here: no rule lets a
result depend on them (R115). -/
inductive FloatVal where
  | nan
  | inf (neg : Bool)
  | fin (neg : Bool) (m : Nat) (e : Int)
  deriving DecidableEq, Repr

/-- The value a datum has in arithmetic: a NaN's sign and fraction take no part in it (R115). -/
def Datum.value : Datum → FloatVal
  | .nan _ _ => .nan
  | .inf neg => .inf neg
  | .fin neg m e => .fin neg m e

namespace Format

/-- The all-ones exponent field. -/
def expOnes {w : Nat} (F : Format w) : Nat := 2 ^ F.expBits - 1

/-- The exponent bias: 127 or 1023 (R15). -/
def bias {w : Nat} (F : Format w) : Nat := 2 ^ (F.expBits - 1) - 1

/-- The weight exponent of the last fraction bit of a subnormal: the least quantum of the format. -/
def qMin {w : Nat} (F : Format w) : Int := 1 - (F.bias : Int) - (F.fracBits : Int)

/-- The weight exponent of the last fraction bit of the largest normals. -/
def qMax {w : Nat} (F : Format w) : Int := F.qMin + ((F.expOnes : Int) - 2)

/-- R15: the exponent field. -/
def expField {w : Nat} (F : Format w) (v : BitVec w) : Nat := v.toNat / 2 ^ F.fracBits % 2 ^ F.expBits

/-- R15: the fraction field. -/
def fracField {w : Nat} (F : Format w) (v : BitVec w) : Nat := v.toNat % 2 ^ F.fracBits

/-- R11's `F_P`, by the layout of R15: the datum whose encoding is `v`. -/
def datum {w : Nat} (F : Format w) (v : BitVec w) : Datum :=
  let e := F.expField v
  let f := F.fracField v
  if e = F.expOnes then
    if f = 0 then .inf v.msb else .nan v.msb f
  else if e = 0 then .fin v.msb f F.qMin
  else .fin v.msb (2 ^ F.fracBits + f) (F.qMin + ((e : Int) - 1))

/-- The value of the datum an encoding is: the operand `F_P(v)` of R116 and R117. -/
def value {w : Nat} (F : Format w) (v : BitVec w) : FloatVal := (F.datum v).value

/-- The encoding with this sign, exponent field and fraction field (R15). -/
def pack {w : Nat} (F : Format w) (neg : Bool) (e f : Nat) : BitVec w :=
  BitVec.ofNat w (neg.toNat * 2 ^ (F.expBits + F.fracBits) + e * 2 ^ F.fracBits + f)

/-- R11's `enc_P`: the encoding of a datum. -/
def enc {w : Nat} (F : Format w) : Datum → BitVec w
  | .nan neg frac => F.pack neg F.expOnes frac
  | .inf neg => F.pack neg F.expOnes 0
  | .fin neg m e =>
    if m < 2 ^ F.fracBits then F.pack neg 0 m
    else F.pack neg ((e - F.qMin).toNat + 1) (m - 2 ^ F.fracBits)

/-- The encoding of an operation's result. A NaN result has none of its own: which NaN datum it is, R115 leaves OPEN. -/
def encode {w : Nat} (F : Format w) : FloatVal → Option (BitVec w)
  | .nan => none
  | .inf neg => some (F.enc (.inf neg))
  | .fin neg m e => some (F.enc (.fin neg m e))

end Format

/-- `a / b` rounded to the nearest integer, ties to the even one. -/
def divNearestEven (a b : Nat) : Nat :=
  let q := a / b
  let r := a % b
  if 2 * r < b then q
  else if b < 2 * r then q + 1
  else if q % 2 = 0 then q
  else q + 1

/-- `floor (log2 (num / den))`, for positive `num` and `den`. -/
def floorLog2 (num den : Nat) : Int :=
  let k : Int := (num.log2 : Int) - (den.log2 : Int)
  if den * 2 ^ k.toNat ≤ num * 2 ^ (-k).toNat then k else k - 1

namespace Format

/-- R111, R112, R113: `(-1)^neg * num / den * 2^e` rounded once to the format with roundTiesToEven. The quantum is that
of the exact result's binade, but never below the least one (gradual underflow); a result past the largest normal
is an infinity of the same sign. -/
def round {w : Nat} (F : Format w) (neg : Bool) (num den : Nat) (e : Int) : FloatVal :=
  if num = 0 then .fin neg 0 F.qMin
  else
    let q := max F.qMin (floorLog2 num den + e - (F.fracBits : Int))
    let m := divNearestEven (num * 2 ^ (e - q).toNat) (den * 2 ^ (q - e).toNat)
    let m' := if m = 2 ^ (F.fracBits + 1) then 2 ^ F.fracBits else m
    let q' := if m = 2 ^ (F.fracBits + 1) then q + 1 else q
    if F.qMax < q' then .inf neg else .fin neg m' q'

/-- `fmul_P` (R12, R111, R113). -/
def fmul {w : Nat} (F : Format w) : FloatVal → FloatVal → FloatVal
  | .nan, _ => .nan
  | _, .nan => .nan
  | .inf s, .inf t => .inf (s ^^ t)
  | .inf s, .fin t m _ => if m = 0 then .nan else .inf (s ^^ t)
  | .fin s m _, .inf t => if m = 0 then .nan else .inf (s ^^ t)
  | .fin s m e, .fin t n f => F.round (s ^^ t) (m * n) 1 (e + f)

/-- `fdiv_P` (R12, R111, R113). -/
def fdiv {w : Nat} (F : Format w) : FloatVal → FloatVal → FloatVal
  | .nan, _ => .nan
  | _, .nan => .nan
  | .inf _, .inf _ => .nan
  | .inf s, .fin t _ _ => .inf (s ^^ t)
  | .fin s _ _, .inf t => .fin (s ^^ t) 0 F.qMin
  | .fin s m e, .fin t n f =>
    if n = 0 then (if m = 0 then .nan else .inf (s ^^ t))
    else F.round (s ^^ t) m n (e - f)

/-- The signed integer `(-1)^neg * m`. -/
def signed (neg : Bool) (m : Nat) : Int := if neg then -(m : Int) else (m : Int)

/-- `fadd_P` (R12, R111, R113). Two zeros of one sign keep it, as IEEE-754 has it (log 7); any other exact sum of zero
is `+0`. -/
def fadd {w : Nat} (F : Format w) : FloatVal → FloatVal → FloatVal
  | .nan, _ => .nan
  | _, .nan => .nan
  | .inf s, .inf t => if s = t then .inf s else .nan
  | .inf s, .fin _ _ _ => .inf s
  | .fin _ _ _, .inf t => .inf t
  | .fin s m e, .fin t n f =>
    let q := min e f
    let sum := signed s (m * 2 ^ (e - q).toNat) + signed t (n * 2 ^ (f - q).toNat)
    if sum = 0 then .fin (s && t) 0 F.qMin
    else F.round (decide (sum < 0)) sum.natAbs 1 q

/-- A datum with its sign reversed. -/
def negate : FloatVal → FloatVal
  | .nan => .nan
  | .inf s => .inf (!s)
  | .fin s m e => .fin (!s) m e

/-- `fsub_P` (R12, R111): the sum with the second operand's sign reversed. -/
def fsub {w : Nat} (F : Format w) (a b : FloatVal) : FloatVal := F.fadd a (negate b)

end Format
end Sys2Proof.Machine
end

