-- ==== Sys2Proof/Machine/Flags.lean ====
section
/-! DEFINITION. Conditions on encodings. The block has no flag, condition code or predicate, and records no IEEE-754
exception condition (10_state.md R23, 41_refine.md R114): no definition here is read into state. What stands in the
place of flags is the classification of an encoding (00_scope.md R15). -/

namespace Sys2Proof.Machine

/-- R15: exponent all ones and fraction nonzero. -/
def isNaN {w : Nat} (F : Format w) (v : BitVec w) : Bool :=
  F.expField v == F.expOnes && F.fracField v != 0

/-- R15: a NaN "is quiet when f's top bit is 1". -/
def isQuietNaN {w : Nat} (F : Format w) (v : BitVec w) : Bool :=
  isNaN F v && (F.fracField v).testBit (F.fracBits - 1)

/-- R15, R88: a NaN that is not quiet is signalling. -/
def isSignallingNaN {w : Nat} (F : Format w) (v : BitVec w) : Bool :=
  isNaN F v && !(F.fracField v).testBit (F.fracBits - 1)

/-- R15: exponent all ones and fraction zero. -/
def isInf {w : Nat} (F : Format w) (v : BitVec w) : Bool :=
  F.expField v == F.expOnes && F.fracField v == 0

/-- R15: exponent and fraction zero. -/
def isZero {w : Nat} (F : Format w) (v : BitVec w) : Bool :=
  F.expField v == 0 && F.fracField v == 0

/-- R15, Glossary: exponent zero and fraction nonzero. -/
def isSubnormal {w : Nat} (F : Format w) (v : BitVec w) : Bool :=
  F.expField v == 0 && F.fracField v != 0

/-- R15: `0 < e < all-ones`. -/
def isNormal {w : Nat} (F : Format w) (v : BitVec w) : Bool :=
  F.expField v != 0 && F.expField v != F.expOnes

end Sys2Proof.Machine
end

