-- ==== Sys2Proof/Machine/Seed.lean ====
section
/-! DEFINITION. The seed computation (40_approx.md R81 to R89): integer laws on the operand's bits, and no float. -/

namespace Sys2Proof.Machine

/-- `asr(v, 1)` (R10, R82): the arithmetic right shift by one, which copies the sign bit. -/
def asr1 {w : Nat} (v : BitVec w) : BitVec w := v.sshiftRight 1

/-- `lsr(v, 1)` (R10). R10 defines it "only so that rules can say it is not used": no meaning calls it. -/
def lsr1 {w : Nat} (v : BitVec w) : BitVec w := v >>> 1

/-- R84: `seed_INV_32`. -/
def seedInv32 (rom : ConstantRom) (y : Bits32) : Bits32 := rom.magicInvSqrt32 - asr1 y

/-- R85: `seed_SQRT_32`. -/
def seedSqrt32 (rom : ConstantRom) (y : Bits32) : Bits32 := rom.magicSqrt32 + asr1 y

/-- R86: `seed_INV_64`. -/
def seedInv64 (rom : ConstantRom) (y : Bits64) : Bits64 := rom.magicInvSqrt64 - asr1 y

/-- R87: `seed_SQRT_64`. -/
def seedSqrt64 (rom : ConstantRom) (y : Bits64) : Bits64 := rom.magicSqrt64 + asr1 y

/-- R80: `seed_D_32`. -/
def seed32 (rom : ConstantRom) : Dir → Bits32 → Bits32
  | .inv => seedInv32 rom
  | .sqrt => seedSqrt32 rom

/-- R80: `seed_D_64`. -/
def seed64 (rom : ConstantRom) : Dir → Bits64 → Bits64
  | .inv => seedInv64 rom
  | .sqrt => seedSqrt64 rom

end Sys2Proof.Machine
end

