-- ==== Sys2Proof/Machine/Refine.lean ====
section
/-! DEFINITION. The Newton-Raphson refinement stage (41_refine.md R110 to R118), for both precisions at once. It computes
in floating point only, with no integer comparison and no branch on a field (R110, 90_conflicts.md C1). -/

namespace Sys2Proof.Machine

/-- A NaN encoding made from any bits: the bits themselves where they are one, else the bits with the exponent and the
top fraction bit set. Every NaN encoding arises, so this says of `NAN_RESULT_P` that it is a NaN and nothing else
(R115). Log 6. -/
def forceNaN {w : Nat} (F : Format w) (v : BitVec w) : BitVec w :=
  if isNaN F v then v else v ||| F.pack false F.expOnes (2 ^ (F.fracBits - 1))

/-- R115: `NAN_RESULT_32(dir, y, g)`. -/
def nanResult32 (dir : Dir) (y g : Bits32) : Bits32 := forceNaN binary32 (Config.nanChoice32 dir y g)

/-- R115: `NAN_RESULT_64(dir, y, g)`. -/
def nanResult64 (dir : Dir) (y g : Bits64) : Bits64 := forceNaN binary64 (Config.nanChoice64 dir y g)

/-- R116's `t5`: `g * (1.5 - ((0.5 * y) * g) * g)`, each operation rounded on its own. -/
def invStep {w : Nat} (F : Format w) (y g : BitVec w) : FloatVal :=
  let t1 := F.fmul (F.value F.half) (F.value y)
  let t2 := F.fmul t1 (F.value g)
  let t3 := F.fmul t2 (F.value g)
  let t4 := F.fsub (F.value F.oneAndHalf) t3
  F.fmul (F.value g) t4

/-- R117's `d`: `0.5 * g + (0.5 * y) / g`, each operation rounded on its own. -/
def sqrtStep {w : Nat} (F : Format w) (y g : BitVec w) : FloatVal :=
  let a := F.fmul (F.value F.half) (F.value g)
  let b := F.fmul (F.value F.half) (F.value y)
  let c := F.fdiv b (F.value g)
  F.fadd a c

/-- The last line of R116 and R117: the encoding of the result, or R115's NaN. -/
def stepResult {w : Nat} (F : Format w) (nan : BitVec w) (v : FloatVal) : BitVec w := (F.encode v).getD nan

/-- R116: `refine_INV_32`. -/
def refineInv32 (y g : Bits32) : Bits32 := stepResult binary32 (nanResult32 .inv y g) (invStep binary32 y g)

/-- R117: `refine_SQRT_32`. -/
def refineSqrt32 (y g : Bits32) : Bits32 := stepResult binary32 (nanResult32 .sqrt y g) (sqrtStep binary32 y g)

/-- R116: `refine_INV_64`. -/
def refineInv64 (y g : Bits64) : Bits64 := stepResult binary64 (nanResult64 .inv y g) (invStep binary64 y g)

/-- R117: `refine_SQRT_64`. -/
def refineSqrt64 (y g : Bits64) : Bits64 := stepResult binary64 (nanResult64 .sqrt y g) (sqrtStep binary64 y g)

/-- R80: `refine_D_32`. -/
def refine32 : Dir → Bits32 → Bits32 → Bits32
  | .inv => refineInv32
  | .sqrt => refineSqrt32

/-- R80: `refine_D_64`. -/
def refine64 : Dir → Bits64 → Bits64 → Bits64
  | .inv => refineInv64
  | .sqrt => refineSqrt64

/-- R80, R118: "repeat nr times". -/
def repeatTimes {α : Type} (f : α → α) : Nat → α → α
  | 0, g => g
  | n + 1, g => repeatTimes f n (f g)

/-- R80: `exec(dir, P32, nr, Y)`. -/
def approx32 (rom : ConstantRom) (dir : Dir) (nr : Nat) (Y : Bits64) : Bits64 :=
  let y := operand32 Y
  result32 (repeatTimes (refine32 dir y) nr (seed32 rom dir y))

/-- R80: `exec(dir, P64, nr, Y)`. -/
def approx64 (rom : ConstantRom) (dir : Dir) (nr : Nat) (Y : Bits64) : Bits64 :=
  let y := operand64 Y
  result64 (repeatTimes (refine64 dir y) nr (seed64 rom dir y))

/-- R80: `exec(dir, prec, nr, Y)`, the result of a defined request. -/
def approx (rom : ConstantRom) (dir : Dir) : Prec → Nat → Bits64 → Bits64
  | .p32 => approx32 rom dir
  | .p64 => approx64 rom dir

end Sys2Proof.Machine
end

