-- ==== Sys2Proof/Machine/Ops.lean ====
section
/-! DEFINITION. The named operations on the state: what accepting, answering, refusing and resetting do (30_encoding.md
R66, R68; 70_reset_and_hazards.md R160). The block takes no exception and returns from none (60_exceptions.md R140,
R144, R145); the one outcome beside a response is `refuse`. -/

namespace Sys2Proof.Machine.State

/-- No response on the bus: every step but a responding completion ends so (R25). -/
def quiet (s : State) : State := { s with rBus := none }

/-- R68 `accept`: the request is taken whole into the slot (R43). -/
def accept (q : Request) (s : State) : State := { s with pending := some q, rBus := none }

/-- R165: the pending request, if there is one, with its outcome, added to the run's observation. -/
def observed (s : State) (o : ReqOutcome) : List (Request × ReqOutcome) :=
  match s.pending with
  | none => s.observation
  | some q => s.observation ++ [(q, o)]

/-- R68 `complete` for a defined word: `R <- r; respond(R); pending <- none`. -/
def respond (r : Bits64) (s : State) : State :=
  { s with pending := none, rBus := some r, observation := s.observed (.responded r) }

/-- R66, R141: no response, nothing written, back to idle, and the mark. -/
def refuse (why : Reject) (s : State) : State :=
  { s with pending := none, rBus := none, refusalMark := true, observation := s.observed (.refused why) }

/-- R160: idle; an accepted request is discarded with no outcome. The refusal mark and the observation are the run's,
not the block's, and stay (log 5). -/
def resetBlock (s : State) : State := { s with pending := none, rBus := none }

end Sys2Proof.Machine.State
end

