-- ==== Sys2Proof/Machine/ExecRefined.lean ====
section
/-! DEFINITION. The meanings of the eight operations with `NR = 1` or `NR = 2` (40_approx.md R90 to R93, 41_refine.md
R116 to R118): the seed refined once or twice is the response. -/

namespace Sys2Proof.Machine

/-- `FRSQRTA.S.NR1` (R90, k = 1). -/
def execFrsqrtaSNr1 (y : Bits64) (s : State) : Host.Outcome State Fault Refusal := .next (s.respond (approx s.rom .inv .p32 1 y))

/-- `FSQRTA.S.NR1` (R91, k = 1). -/
def execFsqrtaSNr1 (y : Bits64) (s : State) : Host.Outcome State Fault Refusal := .next (s.respond (approx s.rom .sqrt .p32 1 y))

/-- `FRSQRTA.D.NR1` (R92, k = 1). -/
def execFrsqrtaDNr1 (y : Bits64) (s : State) : Host.Outcome State Fault Refusal := .next (s.respond (approx s.rom .inv .p64 1 y))

/-- `FSQRTA.D.NR1` (R93, k = 1). -/
def execFsqrtaDNr1 (y : Bits64) (s : State) : Host.Outcome State Fault Refusal := .next (s.respond (approx s.rom .sqrt .p64 1 y))

/-- `FRSQRTA.S.NR2` (R90, k = 2). -/
def execFrsqrtaSNr2 (y : Bits64) (s : State) : Host.Outcome State Fault Refusal := .next (s.respond (approx s.rom .inv .p32 2 y))

/-- `FSQRTA.S.NR2` (R91, k = 2). -/
def execFsqrtaSNr2 (y : Bits64) (s : State) : Host.Outcome State Fault Refusal := .next (s.respond (approx s.rom .sqrt .p32 2 y))

/-- `FRSQRTA.D.NR2` (R92, k = 2). -/
def execFrsqrtaDNr2 (y : Bits64) (s : State) : Host.Outcome State Fault Refusal := .next (s.respond (approx s.rom .inv .p64 2 y))

/-- `FSQRTA.D.NR2` (R93, k = 2). -/
def execFsqrtaDNr2 (y : Bits64) (s : State) : Host.Outcome State Fault Refusal := .next (s.respond (approx s.rom .sqrt .p64 2 y))

end Sys2Proof.Machine
end

