-- ==== Sys2Proof/Machine/ExecSeed.lean ====
section
/-! DEFINITION. The meanings of the four operations with `NR = 0` (40_approx.md R90 to R93): the seed is the response. -/

namespace Sys2Proof.Machine

/-- `FRSQRTA.S` (R90, k = 0). -/
def execFrsqrtaS (y : Bits64) (s : State) : Host.Outcome State Fault Refusal := .next (s.respond (approx s.rom .inv .p32 0 y))

/-- `FSQRTA.S` (R91, k = 0). -/
def execFsqrtaS (y : Bits64) (s : State) : Host.Outcome State Fault Refusal := .next (s.respond (approx s.rom .sqrt .p32 0 y))

/-- `FRSQRTA.D` (R92, k = 0). -/
def execFrsqrtaD (y : Bits64) (s : State) : Host.Outcome State Fault Refusal := .next (s.respond (approx s.rom .inv .p64 0 y))

/-- `FSQRTA.D` (R93, k = 0). -/
def execFsqrtaD (y : Bits64) (s : State) : Host.Outcome State Fault Refusal := .next (s.respond (approx s.rom .sqrt .p64 0 y))

end Sys2Proof.Machine
end

