-- ==== Sys2Proof/Machine/Dispatch.lean ====
section
/-! DEFINITION. The one dispatch: each instruction of spec/opcode_table.json to its meaning. -/

namespace Sys2Proof.Machine

def exec (i : Instr) (s : State) : Host.Outcome State Fault Refusal :=
  match i with
  -- NR = 0
  | .frsqrtaS y => Sys2Proof.Machine.execFrsqrtaS y s
  | .fsqrtaS y => Sys2Proof.Machine.execFsqrtaS y s
  | .frsqrtaD y => Sys2Proof.Machine.execFrsqrtaD y s
  | .fsqrtaD y => Sys2Proof.Machine.execFsqrtaD y s
  -- NR = 1
  | .frsqrtaSNr1 y => Sys2Proof.Machine.execFrsqrtaSNr1 y s
  | .fsqrtaSNr1 y => Sys2Proof.Machine.execFsqrtaSNr1 y s
  | .frsqrtaDNr1 y => Sys2Proof.Machine.execFrsqrtaDNr1 y s
  | .fsqrtaDNr1 y => Sys2Proof.Machine.execFsqrtaDNr1 y s
  -- NR = 2
  | .frsqrtaSNr2 y => Sys2Proof.Machine.execFrsqrtaSNr2 y s
  | .fsqrtaSNr2 y => Sys2Proof.Machine.execFsqrtaSNr2 y s
  | .frsqrtaDNr2 y => Sys2Proof.Machine.execFrsqrtaDNr2 y s
  | .fsqrtaDNr2 y => Sys2Proof.Machine.execFsqrtaDNr2 y s

end Sys2Proof.Machine
end

