-- ==== Sys2Proof/Machine/Turn.lean ====
section
/-! DEFINITION. R68's two steps, `accept` and `complete`, and which of them, or R160's reset, or nothing, happens next.
The block is deterministic; what R164 leaves to the host and to the delay of a completion is the list
`State.inputs` (log 1). -/

namespace Sys2Proof.Machine

/-- R68 `complete`: the pending request decoded, and answered or refused. It is enabled only when a request is pending;
with none the block stays idle. -/
def complete (s : State) : Host.Outcome State Fault Refusal :=
  match s.pending with
  | none => .next s.quiet
  | some q =>
    match decode q with
    | .error why => .next (s.refuse why)
    | .ok i => exec i s

/-- One step. The next host interaction happens: a request is accepted if the block is idle, and otherwise waits while
the block completes the one it holds (R29, R163a); a completion completes; a reset resets (R160); a delay passes
(R166). With no interaction left, a pending request completes (R164's fairness), and an idle block stays idle. -/
def turn (s : State) : Host.Outcome State Fault Refusal :=
  match s.inputs with
  | [] => complete s
  | .request q :: rest =>
    match s.pending with
    | none => .next (State.accept q { s with inputs := rest })
    | some _ => complete s
  | .completion :: rest => complete { s with inputs := rest }
  | .reset :: rest => .next (State.resetBlock { s with inputs := rest })
  | .delay :: rest => .next (State.quiet { s with inputs := rest })

/-- The state with this request in the slot, and its completion as the very next step (log 3). -/
def State.loadRequest (s : State) (q : Request) : State :=
  { s with pending := some q, inputs := .completion :: s.inputs }

end Sys2Proof.Machine
end

