-- ==== Sys2Proof/Machine/Step.lean ====
section
/-! DEFINITION. The step of one instance, and how a word is placed where the next step finds it. -/

namespace Sys2Proof.Machine

/-- One step of the block and its host (30_encoding.md R68, 70_reset_and_hazards.md R164). -/
def step (s : State) : Host.Outcome State Fault Refusal := turn s

/-- The state with the request of this word accepted into the transaction slot, which is where the block finds its
next operation, and its completion next. Log 3, log 8. -/
def State.withFetchWord (s : State) (nbits w : Nat) : State := s.loadRequest (requestOfWord nbits w)

end Sys2Proof.Machine
end

