-- ==== Sys2Proof/Machine/Assembler.lean ====
section
/-! DEFINITION. The assembler of 30_encoding.md R69 and R70: one line `MNEMONIC[.NR1|.NR2] <operand>` to the request it
stands for. What R69 leaves open of a literal's spelling and rounding is log 10. -/

namespace Sys2Proof.Machine

/-- Why a line is refused by the assembler (R69). -/
inductive AsmError where
  /-- The first word is no mnemonic of R63 and no pseudo-instruction of R70. -/
  | unknownMnemonic
  /-- The operand is neither a hexadecimal bit pattern nor a decimal literal. -/
  | badOperand
  /-- R69: `nan` is not accepted as a literal. -/
  | nanLiteral
  /-- R69: a `.S` pattern that does not fit in 32 bits, or a `.D` pattern that does not fit in 64. -/
  | patternTooWide
  deriving DecidableEq, Repr

/-- R63's mnemonics, R70's `.NR0` spellings and R70's API names, each with its operation word. -/
def mnemonicTable : List (String × Bits8) :=
  [("FRSQRTA.S", 0x01#8), ("FSQRTA.S", 0x00#8), ("FRSQRTA.D", 0x03#8), ("FSQRTA.D", 0x02#8),
   ("FRSQRTA.S.NR1", 0x05#8), ("FSQRTA.S.NR1", 0x04#8), ("FRSQRTA.D.NR1", 0x07#8), ("FSQRTA.D.NR1", 0x06#8)]
  ++
  [("FRSQRTA.S.NR2", 0x09#8), ("FSQRTA.S.NR2", 0x08#8), ("FRSQRTA.D.NR2", 0x0B#8), ("FSQRTA.D.NR2", 0x0A#8)]
  ++
  [("FRSQRTA.S.NR0", 0x01#8), ("FSQRTA.S.NR0", 0x00#8), ("FRSQRTA.D.NR0", 0x03#8), ("FSQRTA.D.NR0", 0x02#8),
   ("approx_inverse_sqrt_f32", 0x01#8), ("approx_sqrt_f32", 0x00#8),
   ("approx_inverse_sqrt_f64", 0x03#8), ("approx_sqrt_f64", 0x02#8)]

/-- The operation word of a mnemonic. -/
def mnemonicOp (name : List Char) : Option Bits8 :=
  (mnemonicTable.find? fun row => row.1.toList == name).map Prod.snd

/-- The value of a digit in base 16. -/
def hexDigit (c : Char) : Option Nat :=
  if '0' ≤ c ∧ c ≤ '9' then some (c.toNat - '0'.toNat)
  else if 'a' ≤ c ∧ c ≤ 'f' then some (c.toNat - 'a'.toNat + 10)
  else if 'A' ≤ c ∧ c ≤ 'F' then some (c.toNat - 'A'.toNat + 10)
  else none

/-- The value of a digit in base 10. -/
def decDigit (c : Char) : Option Nat :=
  if '0' ≤ c ∧ c ≤ '9' then some (c.toNat - '0'.toNat) else none

/-- Hexadecimal digits onto the number read so far; `_` is an optional separator (R8). -/
def hexDigits : Nat → List Char → Option Nat
  | n, [] => some n
  | n, '_' :: cs => hexDigits n cs
  | n, c :: cs =>
    match hexDigit c with
    | none => none
    | some d => hexDigits (16 * n + d) cs

/-- A hexadecimal bit pattern after its `0x`: it begins with a digit. -/
def hexPattern : List Char → Option Nat
  | [] => none
  | c :: cs => (hexDigit c).bind fun d => hexDigits d cs

/-- Decimal digits onto the number read so far: the number, how many digits were read, and the rest. -/
def decDigits : Nat → Nat → List Char → Nat × Nat × List Char
  | n, k, [] => (n, k, [])
  | n, k, c :: cs =>
    match decDigit c with
    | none => (n, k, c :: cs)
    | some d => decDigits (10 * n + d) (k + 1) cs

/-- The exponent part of a literal, `e` and an optional sign and digits; `0` where there is none. -/
def expPart : List Char → Option Int
  | [] => some 0
  | c :: cs =>
    if c = 'e' ∨ c = 'E' then
      let (neg, digits) := match cs with
        | '-' :: ds => (true, ds)
        | '+' :: ds => (false, ds)
        | ds => (false, ds)
      match decDigits 0 0 digits with
      | (n, _ + 1, []) => some (if neg then -(n : Int) else (n : Int))
      | _ => none
    else none

/-- The magnitude of a decimal literal, as `digits * 10^exponent`. -/
def decMagnitude (cs : List Char) : Option (Nat × Int) :=
  match decDigits 0 0 cs with
  | (_, 0, _) => none
  | (n, _, '.' :: rest) =>
    match decDigits n 0 rest with
    | (_, 0, _) => none
    | (m, k, tail) => (expPart tail).map fun e => (m, e - (k : Int))
  | (n, _, tail) => (expPart tail).map fun e => (n, e)

/-- The datum of a decimal literal: its exact value, rounded once with roundTiesToEven where the format has no such
datum (log 10). -/
def literalValue {w : Nat} (F : Format w) (cs : List Char) : Except AsmError FloatVal :=
  let (neg, mag) := match cs with
    | '-' :: ds => (true, ds)
    | ds => (false, ds)
  if mag = "nan".toList then .error .nanLiteral
  else if mag = "inf".toList then .ok (.inf neg)
  else
    match decMagnitude mag with
    | none => .error .badOperand
    | some (n, e) => .ok (F.round neg (n * 10 ^ e.toNat) (10 ^ (-e).toNat) 0)

/-- An operand in a format of `w` bits: a bit pattern, or the encoding of a literal (R69). -/
def operandBits {w : Nat} (F : Format w) : List Char → Except AsmError (BitVec w)
  | '0' :: 'x' :: digits =>
    match hexPattern digits with
    | none => .error .badOperand
    | some n => if n < 2 ^ w then .ok (BitVec.ofNat w n) else .error .patternTooWide
  | cs =>
    match literalValue F cs with
    | .error why => .error why
    | .ok v =>
      match F.encode v with
      | none => .error .nanLiteral
      | some b => .ok b

/-- The operand of an operation word, in that word's precision, zero-extended to the bus (R69). -/
def operandY (op : Bits8) (cs : List Char) : Except AsmError Bits64 :=
  if op.getLsbD 1 then operandBits binary64 cs
  else (operandBits binary32 cs).map fun b => b.setWidth 64

/-- The characters up to the first space, and those after the spaces that follow it. -/
def splitWord : List Char → List Char × List Char
  | [] => ([], [])
  | c :: cs =>
    if c = ' ' then ([], cs.dropWhile (· = ' '))
    else
      let (word, rest) := splitWord cs
      (c :: word, rest)

/-- R69: the request a line stands for. -/
def assemble (line : List Char) : Except AsmError Request :=
  let (name, operand) := splitWord line
  match mnemonicOp name with
  | none => .error .unknownMnemonic
  | some op =>
    match operandY op operand with
    | .error why => .error why
    | .ok y => .ok { op := op, y := y }

end Sys2Proof.Machine
end

