-- ==== Sys2Proof/Machine/Platform.lean ====
section
/-! DEFINITION. Several instances of the block (60_exceptions.md R150, 20_memory.md R47c, D15): a list of states that
share nothing but the hardwired constants. Which one steps is the platform's choice, an index here (log 16). -/

namespace Sys2Proof.Machine

/-- The instances of a platform. They "have no identifiers": an index is only a place in this list. -/
abbrev Platform := List State

/-- One step of the instance at index `k`, if there is one; the others do not move. -/
def stepAt (k : Nat) (p : Platform) : Host.Outcome Platform Fault Refusal :=
  match p[k]? with
  | none => .next p
  | some s =>
    match step s with
    | .next t => .next (p.set k t)
    | .fault r => .fault r
    | .refused r => .refused r

end Sys2Proof.Machine
end

