-- ==== Sys2Proof/Safety.lean ====
section
/-! DEFINITION. The terms claims use: the outcome a request has by the rules, what a sound state is, when a run has
ended, and what it is for a datum to be an exact number rounded to a format. -/

namespace Sys2Proof.Machine

/-- The one outcome of a request (60_exceptions.md R142): refused where R64's `decode` has nothing, else R80's result.
A function of the request alone, the constants, and the OPEN NaN choice (10_state.md R28). -/
def outcomeOf (q : Request) : ReqOutcome :=
  match decodeOp q.op with
  | none => .refused (.reservedOp q.op)
  | some f => .responded (approx {} f.dir f.prec f.nr q.y)

/-- The outcome is a refusal. -/
def ReqOutcome.isRefusal : ReqOutcome → Bool
  | .responded _ => false
  | .refused _ => true

/-- The interaction is a request. -/
def Interaction.isRequest : Interaction → Bool
  | .request _ => true
  | .completion | .reset | .delay => false

/-- A run has ended: "the host has no further request to issue and `pending = none`" (R165). A delay, a completion or a
reset may still be to come. -/
def State.finished (s : State) : Bool := !s.inputs.any Interaction.isRequest && s.pending == none

/-- The next step of a state that holds a request completes it, and leaves `rest` of the host's interactions: none is
left, or a request waits at the head and stays, or a completion is taken off (log 1). -/
def State.CompletionDue (s : State) (rest : List Interaction) : Prop :=
  (s.inputs = [] ∧ rest = []) ∨
  (∃ p tail, s.inputs = .request p :: tail ∧ rest = .request p :: tail) ∨
  s.inputs = .completion :: rest

/-- A safe state: every outcome observed is the one its request has by the rules (R28, R142); the refusal mark is set
exactly when some request was refused (R141); and a value on the response bus is the last response observed (R25). -/
structure State.Sound (s : State) : Prop where
  outcomes : ∀ p ∈ s.observation, p.2 = outcomeOf p.1
  mark : s.refusalMark = s.observation.any fun p => p.2.isRefusal
  bus : ∀ r, s.rBus = some r → ∃ q, s.observation.getLast? = some (q, .responded r)

/-- What a response leaves, field by field (R68, R165): the slot empty, `r` on the response bus, the pending request and
its response added to the observation, and everything else as it was (R44). -/
def State.responded (s : State) (r : Bits64) : State :=
  { rom := s.rom
    pending := none
    rBus := some r
    refusalMark := s.refusalMark
    observation := s.observation ++ (match s.pending with | none => [] | some q => [(q, .responded r)])
    inputs := s.inputs }

/-- The sign of a datum, as a factor. -/
def signFactor (neg : Bool) : ℚ := if neg then -1 else 1

/-- The real number a finite datum is (R15); `0` for the others, which no claim uses. -/
def FloatVal.toRat : FloatVal → ℚ
  | .fin neg m e => signFactor neg * (m : ℚ) * (2 : ℚ) ^ e
  | _ => 0

/-- The datum is finite. -/
def FloatVal.isFinite : FloatVal → Prop
  | .fin _ _ _ => True
  | _ => False

/-- The finite data of a format, in the one form `Format.value` gives them: a subnormal or zero at the least quantum, or a
normal whose significand has `fracBits + 1` bits (R15). -/
def Format.Represents {w : Nat} (F : Format w) (m : Nat) (e : Int) : Prop :=
  (e = F.qMin ∧ m < 2 ^ F.fracBits) ∨ (F.qMin ≤ e ∧ e ≤ F.qMax ∧ 2 ^ F.fracBits ≤ m ∧ m < 2 ^ (F.fracBits + 1))

/-- The least magnitude that roundTiesToEven takes to an infinity: the largest finite datum and half a quantum. -/
def Format.overflowAt {w : Nat} (F : Format w) : ℚ :=
  ((2 : ℚ) ^ (F.fracBits + 1) - 1 / 2) * (2 : ℚ) ^ F.qMax

/-- R111: `v` is the number `x` rounded once to the format with roundTiesToEven. A finite `v` is a datum of the format,
no datum is nearer to `x`, and where another is as near `v` is the one with an even significand; from
`overflowAt` on it is an infinity; a nonzero `x` gives its sign to `v`. -/
def Format.RoundsTo {w : Nat} (F : Format w) (x : ℚ) : FloatVal → Prop
  | .nan => False
  | .inf neg => F.overflowAt ≤ |x| ∧ (neg = true ↔ x < 0)
  | .fin neg m e =>
    |x| < F.overflowAt ∧ F.Represents m e ∧ (x ≠ 0 → (neg = true ↔ x < 0)) ∧
    ∀ neg' m' e', F.Represents m' e' →
      |(FloatVal.fin neg m e).toRat - x| ≤ |(FloatVal.fin neg' m' e').toRat - x| ∧
      (|(FloatVal.fin neg m e).toRat - x| = |(FloatVal.fin neg' m' e').toRat - x| →
        (FloatVal.fin neg' m' e').toRat ≠ (FloatVal.fin neg m e).toRat → m % 2 = 0)

/-- R111 for `fmul_P`: the exact product, rounded once. -/
def Format.MulRounds {w : Nat} (F : Format w) : Prop :=
  ∀ s m e t n f, F.RoundsTo ((FloatVal.fin s m e).toRat * (FloatVal.fin t n f).toRat) (F.fmul (.fin s m e) (.fin t n f))

/-- R111 for `fadd_P` and `fsub_P`: the exact sum and difference, rounded once. -/
def Format.AddRounds {w : Nat} (F : Format w) : Prop :=
  ∀ s m e t n f,
    F.RoundsTo ((FloatVal.fin s m e).toRat + (FloatVal.fin t n f).toRat) (F.fadd (.fin s m e) (.fin t n f)) ∧
    F.RoundsTo ((FloatVal.fin s m e).toRat - (FloatVal.fin t n f).toRat) (F.fsub (.fin s m e) (.fin t n f))

/-- R111 for `fdiv_P`: the exact quotient by a nonzero datum, rounded once. -/
def Format.DivRounds {w : Nat} (F : Format w) : Prop :=
  ∀ s m e t n f, n ≠ 0 →
    F.RoundsTo ((FloatVal.fin s m e).toRat / (FloatVal.fin t n f).toRat) (F.fdiv (.fin s m e) (.fin t n f))

/-- R11, R15: `enc(F(v)) = v` for every encoding, NaNs included, and `F(enc(x)) = x` for every datum of the format: a NaN of
either sign and any nonzero fraction, quiet exactly when its fraction's top bit is 1, an infinity, and every finite one.
A NaN encoding is one whose value is a NaN, and the encoding of any other value is the encoding it came from. -/
def Format.EncodesItsData {w : Nat} (F : Format w) : Prop :=
  (∀ v : BitVec w, F.enc (F.datum v) = v) ∧
  (∀ neg frac, 0 < frac → frac < 2 ^ F.fracBits →
    F.datum (F.enc (.nan neg frac)) = .nan neg frac ∧
    isQuietNaN F (F.enc (.nan neg frac)) = frac.testBit (F.fracBits - 1)) ∧
  (∀ neg, F.datum (F.enc (.inf neg)) = .inf neg) ∧
  (∀ neg m e, F.Represents m e → F.datum (F.enc (.fin neg m e)) = .fin neg m e) ∧
  (∀ v : BitVec w, isNaN F v = true ↔ F.value v = .nan) ∧
  (∀ v : BitVec w, isNaN F v = false → F.encode (F.value v) = some v)

/-- R113, on any format: invalid operations, division by zero, division by an infinity, the sign of a product and of a
quotient, infinite operands of a sum, and sums of zeros and exact sums of zero. -/
def Format.SpecialValues {w : Nat} (F : Format w) : Prop :=
  (∀ s, F.fsub (.inf s) (.inf s) = .nan ∧ F.fadd (.inf s) (.inf !s) = .nan) ∧
  (∀ s t e, F.fmul (.fin s 0 e) (.inf t) = .nan ∧ F.fmul (.inf t) (.fin s 0 e) = .nan) ∧
  (∀ s t e f, F.fdiv (.fin s 0 e) (.fin t 0 f) = .nan) ∧
  (∀ s t, F.fdiv (.inf s) (.inf t) = .nan) ∧
  (∀ s m e t f, m ≠ 0 → F.fdiv (.fin s m e) (.fin t 0 f) = .inf (s ^^ t)) ∧
  (∀ s m e t, F.fdiv (.fin s m e) (.inf t) = .fin (s ^^ t) 0 F.qMin) ∧
  (∀ s t n f, F.fdiv (.inf s) (.fin t n f) = .inf (s ^^ t)) ∧
  (∀ s t, F.fmul (.inf s) (.inf t) = .inf (s ^^ t)) ∧
  (∀ s m e t, m ≠ 0 → F.fmul (.fin s m e) (.inf t) = .inf (s ^^ t) ∧ F.fmul (.inf t) (.fin s m e) = .inf (s ^^ t)) ∧
  (∀ s m e t n f, F.fmul (.fin s m e) (.fin t n f) = .inf (s ^^ t) ∨
    ∃ k q, F.fmul (.fin s m e) (.fin t n f) = .fin (s ^^ t) k q) ∧
  (∀ s m e t n f, n ≠ 0 → F.fdiv (.fin s m e) (.fin t n f) = .inf (s ^^ t) ∨
    ∃ k q, F.fdiv (.fin s m e) (.fin t n f) = .fin (s ^^ t) k q) ∧
  (∀ s t n f, F.fadd (.inf s) (.fin t n f) = .inf s ∧ F.fadd (.fin t n f) (.inf s) = .inf s) ∧
  (∀ s, F.fadd (.inf s) (.inf s) = .inf s) ∧
  (∀ s e f, F.fadd (.fin s 0 e) (.fin (!s) 0 f) = .fin false 0 F.qMin) ∧
  (∀ s e f, F.fadd (.fin s 0 e) (.fin s 0 f) = .fin s 0 F.qMin) ∧
  (∀ s m e, m ≠ 0 → F.fadd (.fin s m e) (.fin (!s) m e) = .fin false 0 F.qMin)

/-- R119 where the exact half of a datum is a normal number: multiplying by `0.5` lowers the exponent field by one and
changes nothing else. -/
def Format.HalvesExactly {w : Nat} (F : Format w) : Prop :=
  ∀ v : BitVec w, 2 ≤ F.expField v → F.expField v < F.expOnes →
    F.encode (F.fmul (F.value F.half) (F.value v)) = some (v - BitVec.ofNat w (2 ^ F.fracBits))

/-- The corner cases of R116 (41_refine.md), for a step on `y` and `g`; the third one where `0.5 * y` does not round to
zero (log 14). -/
def Format.InvStepCorners {w : Nat} (F : Format w) : Prop :=
  ∀ y g : BitVec w,
    (F.value y = .inf false → (∃ m e, m ≠ 0 ∧ F.value g = .fin false m e) → invStep F y g = .inf true) ∧
    (∀ s e, F.value g = .fin s 0 e → (F.value y).isFinite → invStep F y g = .fin s 0 F.qMin) ∧
    (F.value g = .inf false → ((∃ m e, 2 ≤ m ∧ F.value y = .fin true m e) ∨ F.value y = .inf true) →
      invStep F y g = .inf false) ∧
    (∀ s e, F.value y = .fin s 0 e → (F.value g).isFinite →
      invStep F y g = F.fmul (F.value g) (F.value F.oneAndHalf)) ∧
    (∀ s e t, F.value y = .fin s 0 e → F.value g = .inf t → invStep F y g = .nan) ∧
    (F.value y = .nan → invStep F y g = .nan)

/-- The corner cases of R117 (41_refine.md), for a step on `y` and `g`; those where a halved datum must not round to
zero say so (log 14). -/
def Format.SqrtStepCorners {w : Nat} (F : Format w) : Prop :=
  ∀ y g : BitVec w,
    (∀ e, F.value g = .fin false 0 e → (∃ m f, 2 ≤ m ∧ F.value y = .fin true m f) → sqrtStep F y g = .inf true) ∧
    (∀ s, F.value y = .inf s → (∃ m e, m ≠ 0 ∧ F.value g = .fin false m e) → sqrtStep F y g = .inf s) ∧
    (∀ s e, F.value y = .fin s 0 e → (∃ t m f, 2 ≤ m ∧ F.value g = .fin t m f) →
      sqrtStep F y g = F.fmul (F.value F.half) (F.value g)) ∧
    (∀ s, F.value g = .inf s → (F.value y).isFinite → sqrtStep F y g = .inf s) ∧
    (F.value y = .nan → sqrtStep F y g = .nan)

end Sys2Proof.Machine
end

