-- ==== Sys2Proof/Certificates/Slice0/Obligations.lean ====
section
/-! DEFINITION. The statements for the provers. Each docstring names the rule of spec/ it formalises; a clause that is the
model's own choice names its log entry. -/

open Sys2Proof Sys2Proof.Machine

/-- 30_encoding.md R68, `complete`: when the pending request decodes to `i` and its completion is due, one step is `exec i`.
The completion is due when the host's list is empty, when a request waits at its head (both leave the list alone), or when
its head is a completion, which the step takes off (the list is the model's own: log 1). -/
def Obligations.StepRunsTheDecodedRequest : Prop :=
  ∀ (s : State) (q : Request) (i : Instr), s.pending = some q → decode q = .ok i →
    (s.inputs = [] → step s = exec i s) ∧
    (∀ p rest, s.inputs = .request p :: rest → step s = exec i s) ∧
    (∀ rest, s.inputs = .completion :: rest → step s = exec i { s with inputs := rest })

/-- The model's own loader (log 3): a word placed by `withFetchWord` is what the very next step runs. -/
def Obligations.PlacedWordRunsNext : Prop :=
  ∀ (s : State) (nbits w : Nat) (i : Instr), decodeTableWord nbits w = some i →
    step (s.withFetchWord nbits w) = exec i { s with pending := some (requestOfWord nbits w) }

/-- 30_encoding.md R63: each operation word, written out bit by bit, decodes to its operation. -/
def Obligations.WrittenWordsDecode : Prop :=
  ∀ y : Bits64,
    decode ⟨0b00000001#8, y⟩ = .ok (.frsqrtaS y) ∧ decode ⟨0b00000000#8, y⟩ = .ok (.fsqrtaS y) ∧
    decode ⟨0b00000011#8, y⟩ = .ok (.frsqrtaD y) ∧ decode ⟨0b00000010#8, y⟩ = .ok (.fsqrtaD y) ∧
    decode ⟨0b00000101#8, y⟩ = .ok (.frsqrtaSNr1 y) ∧ decode ⟨0b00000100#8, y⟩ = .ok (.fsqrtaSNr1 y) ∧
    decode ⟨0b00000111#8, y⟩ = .ok (.frsqrtaDNr1 y) ∧ decode ⟨0b00000110#8, y⟩ = .ok (.fsqrtaDNr1 y) ∧
    decode ⟨0b00001001#8, y⟩ = .ok (.frsqrtaSNr2 y) ∧ decode ⟨0b00001000#8, y⟩ = .ok (.fsqrtaSNr2 y) ∧
    decode ⟨0b00001011#8, y⟩ = .ok (.frsqrtaDNr2 y) ∧ decode ⟨0b00001010#8, y⟩ = .ok (.fsqrtaDNr2 y)

/-- 30_encoding.md R64: `decode` is the pseudocode's function of the 8 bits, and accepts exactly the twelve words of
R63 and no other of the 256. -/
def Obligations.DecodeAcceptsExactlyTwelveWords : Prop :=
  (∀ op : Bits8,
    ((op.extractLsb' 4 4 ≠ 0#4 ∨ 2 < (op.extractLsb' 2 2).toNat) → decodeOp op = none) ∧
    (op.extractLsb' 4 4 = 0#4 → (op.extractLsb' 2 2).toNat ≤ 2 →
      decodeOp op = some ⟨if op.getLsbD 0 then .inv else .sqrt, if op.getLsbD 1 then .p64 else .p32,
        (op.extractLsb' 2 2).toNat⟩)) ∧
  (∀ op : Bits8, (decodeOp op).isSome = true ↔
    op ∈ [0x01#8, 0x00#8, 0x03#8, 0x02#8, 0x05#8, 0x04#8, 0x07#8, 0x06#8, 0x09#8, 0x08#8, 0x0B#8, 0x0A#8])

/-- 30_encoding.md R65: the reserved words are 0x10 to 0xFF and 0x0C to 0x0F; each is rejected by name, whatever the
operand, and no other word is. -/
def Obligations.ReservedWordsAreRejected : Prop :=
  ∀ (op : Bits8) (y : Bits64),
    decode ⟨op, y⟩ = .error (.reservedOp op) ↔ 0x10 ≤ op.toNat ∨ (0x0C ≤ op.toNat ∧ op.toNat ≤ 0x0F)

/-- 30_encoding.md R63, R64: decoding and encoding are inverse. A request decodes to an instruction exactly when it is
that instruction's encoding, for every operation word and every operand. -/
def Obligations.DecodeEncodeAgree : Prop :=
  ∀ (q : Request) (i : Instr), decode q = .ok i ↔ encode i = q

/-- 40_approx.md R90, and log 15 for a state that holds no request (the rule speaks of a request; that `exec` then drives the
bus and observes nothing is the model's choice): `FRSQRTA.S[.NRk]`, from every state and for every operand bus value: the words, the result and the whole
next state, and the corner cases and example with `k = 0`. -/
def Obligations.SingleInverseSqrtOperations : Prop :=
  (∀ Y : Bits64,
    encode (.frsqrtaS Y) = ⟨0x01#8, Y⟩ ∧ encode (.frsqrtaSNr1 Y) = ⟨0x05#8, Y⟩ ∧ encode (.frsqrtaSNr2 Y) = ⟨0x09#8, Y⟩) ∧
  (∀ (Y : Bits64) (s : State),
    let y := Y.extractLsb' 0 32
    let g := 0x5F37BE77#32 - y.sshiftRight 1
    exec (.frsqrtaS Y) s = .next (s.responded (g.setWidth 64)) ∧
    exec (.frsqrtaSNr1 Y) s = .next (s.responded ((refineInv32 y g).setWidth 64)) ∧
    exec (.frsqrtaSNr2 Y) s = .next (s.responded ((refineInv32 y (refineInv32 y g)).setWidth 64))) ∧
  (∀ s : State,
    exec (.frsqrtaS 0x00000000#64) s = .next (s.responded 0x5F37BE77#64) ∧
    exec (.frsqrtaS 0x80000000#64) s = .next (s.responded 0x9F37BE77#64) ∧
    exec (.frsqrtaS 0x7F800000#64) s = .next (s.responded 0x1F77BE77#64) ∧
    exec (.frsqrtaS 0x7FC00000#64) s = .next (s.responded 0x1F57BE77#64) ∧
    exec (.frsqrtaS 0xBF800000#64) s = .next (s.responded 0x7F77BE77#64) ∧
    exec (.frsqrtaS 0xFFFFFFFF#64) s = .next (s.responded 0x5F37BE78#64) ∧
    exec (.frsqrtaS 0x43800000#64) s = .next (s.responded 0x3D77BE77#64))

/-- 40_approx.md R91, and log 15 for a state that holds no request (the rule speaks of a request; that `exec` then drives the
bus and observes nothing is the model's choice): `FSQRTA.S[.NRk]`, from every state and for every operand bus value: the words, the result and the whole
next state, and the corner cases and example with `k = 0`. -/
def Obligations.SingleSqrtOperations : Prop :=
  (∀ Y : Bits64,
    encode (.fsqrtaS Y) = ⟨0x00#8, Y⟩ ∧ encode (.fsqrtaSNr1 Y) = ⟨0x04#8, Y⟩ ∧ encode (.fsqrtaSNr2 Y) = ⟨0x08#8, Y⟩) ∧
  (∀ (Y : Bits64) (s : State),
    let y := Y.extractLsb' 0 32
    let g := 0x1FBD3F7D#32 + y.sshiftRight 1
    exec (.fsqrtaS Y) s = .next (s.responded (g.setWidth 64)) ∧
    exec (.fsqrtaSNr1 Y) s = .next (s.responded ((refineSqrt32 y g).setWidth 64)) ∧
    exec (.fsqrtaSNr2 Y) s = .next (s.responded ((refineSqrt32 y (refineSqrt32 y g)).setWidth 64))) ∧
  (∀ s : State,
    exec (.fsqrtaS 0x00000000#64) s = .next (s.responded 0x1FBD3F7D#64) ∧
    exec (.fsqrtaS 0x80000000#64) s = .next (s.responded 0xDFBD3F7D#64) ∧
    exec (.fsqrtaS 0x7F800000#64) s = .next (s.responded 0x5F7D3F7D#64) ∧
    exec (.fsqrtaS 0xBF800000#64) s = .next (s.responded 0xFF7D3F7D#64) ∧
    exec (.fsqrtaS 0xC0858106#64) s = .next (s.responded 0x00000000#64) ∧
    exec (.fsqrtaS 0xC0058106#64) s = .next (s.responded 0xFFC00000#64) ∧
    exec (.fsqrtaS 0x43800000#64) s = .next (s.responded 0x417D3F7D#64))

/-- 40_approx.md R92, and log 15 for a state that holds no request (the rule speaks of a request; that `exec` then drives the
bus and observes nothing is the model's choice): `FRSQRTA.D[.NRk]`, from every state and for every operand: the words, the result and the whole next
state, and the corner cases and example with `k = 0`. -/
def Obligations.DoubleInverseSqrtOperations : Prop :=
  (∀ Y : Bits64,
    encode (.frsqrtaD Y) = ⟨0x03#8, Y⟩ ∧ encode (.frsqrtaDNr1 Y) = ⟨0x07#8, Y⟩ ∧ encode (.frsqrtaDNr2 Y) = ⟨0x0B#8, Y⟩) ∧
  (∀ (Y : Bits64) (s : State),
    let g := 0x5FE6F7CED9168800#64 - Y.sshiftRight 1
    exec (.frsqrtaD Y) s = .next (s.responded g) ∧
    exec (.frsqrtaDNr1 Y) s = .next (s.responded (refineInv64 Y g)) ∧
    exec (.frsqrtaDNr2 Y) s = .next (s.responded (refineInv64 Y (refineInv64 Y g)))) ∧
  (∀ s : State,
    exec (.frsqrtaD 0x0000000000000000#64) s = .next (s.responded 0x5FE6F7CED9168800#64) ∧
    exec (.frsqrtaD 0xFFF8000000000000#64) s = .next (s.responded 0x5FEAF7CED9168800#64) ∧
    exec (.frsqrtaD 0x7FF8000000000000#64) s = .next (s.responded 0x1FEAF7CED9168800#64) ∧
    exec (.frsqrtaD 0x8000000000000000#64) s = .next (s.responded 0x9FE6F7CED9168800#64) ∧
    exec (.frsqrtaD 0x7FF0000000000000#64) s = .next (s.responded 0x1FEEF7CED9168800#64) ∧
    exec (.frsqrtaD 0x4070000000000000#64) s = .next (s.responded 0x3FAEF7CED9168800#64))

/-- 40_approx.md R93, and log 15 for a state that holds no request (the rule speaks of a request; that `exec` then drives the
bus and observes nothing is the model's choice): `FSQRTA.D[.NRk]`, from every state and for every operand: the words, the result and the whole next
state, and the corner cases and example with `k = 0`. -/
def Obligations.DoubleSqrtOperations : Prop :=
  (∀ Y : Bits64,
    encode (.fsqrtaD Y) = ⟨0x02#8, Y⟩ ∧ encode (.fsqrtaDNr1 Y) = ⟨0x06#8, Y⟩ ∧ encode (.fsqrtaDNr2 Y) = ⟨0x0A#8, Y⟩) ∧
  (∀ (Y : Bits64) (s : State),
    let g := 0x1FF7A7EF9DB22D00#64 + Y.sshiftRight 1
    exec (.fsqrtaD Y) s = .next (s.responded g) ∧
    exec (.fsqrtaDNr1 Y) s = .next (s.responded (refineSqrt64 Y g)) ∧
    exec (.fsqrtaDNr2 Y) s = .next (s.responded (refineSqrt64 Y (refineSqrt64 Y g)))) ∧
  (∀ s : State,
    exec (.fsqrtaD 0x7FF0000000000000#64) s = .next (s.responded 0x5FEFA7EF9DB22D00#64) ∧
    exec (.fsqrtaD 0x0000000000000000#64) s = .next (s.responded 0x1FF7A7EF9DB22D00#64) ∧
    exec (.fsqrtaD 0xBFF0000000000000#64) s = .next (s.responded 0xFFEFA7EF9DB22D00#64) ∧
    exec (.fsqrtaD 0x7FEFFFFFFFFFFFFF#64) s = .next (s.responded 0x5FEFA7EF9DB22CFF#64) ∧
    exec (.fsqrtaD 0x4070000000000000#64) s = .next (s.responded 0x402FA7EF9DB22D00#64))

/-- 60_exceptions.md R140: every defined operation produces a result for every operand; it raises nothing and changes nothing
but the slot, the response bus and the observation. R140 speaks of operands, not of states; that `exec` responds from a
state that holds no request too is the model's choice (log 15). -/
def Obligations.EveryOperationResponds : Prop :=
  ∀ (i : Instr) (s : State), ∃ r, exec i s = .next (s.responded r)

/-- No step ends in a fault or a refusal of the model. A defined request is answered (60_exceptions.md R140). That the refusal of
a reserved word is a next state is log 4, that a step with nothing to do is one is log 11 (30_encoding.md R68 has two steps
only), and which interaction comes next is log 1. -/
def Obligations.EveryStepGoesOn : Prop :=
  ∀ s : State, ∃ t, step s = .next t

/-- 60_exceptions.md R142, with 40_approx.md R80: the completion of a request gives it exactly one outcome, a refusal where
`decode` has nothing and else R80's result; it empties the slot. The three forms in which a completion is due are log 1,
the bus without a value after a refusal is log 2, and the refusal as a next state is log 4. -/
def Obligations.RequestGetsExactlyOneOutcome : Prop :=
  ∀ (s : State) (q : Request) (rest : List Interaction), s.pending = some q → s.CompletionDue rest →
    ∃ t o, step s = .next t ∧ t.pending = none ∧ t.inputs = rest ∧ t.observation = s.observation ++ [(q, o)] ∧
      (decodeOp q.op = none → o = .refused (.reservedOp q.op) ∧ t.rBus = none) ∧
      (∀ f, decodeOp q.op = some f →
        o = .responded (approx s.rom f.dir f.prec f.nr q.y) ∧ t.rBus = some (approx s.rom f.dir f.prec f.nr q.y))

/-- 30_encoding.md R66: the completion of a request whose word is reserved gives no response, writes nothing, returns to idle and
sets the mark (R141); the observation records the refusal (70_reset_and_hazards.md R165); all else is as it was. The three
forms in which a completion is due are log 1, the bus without a value is log 2, and the refusal as a next state is
log 4. -/
def Obligations.ReservedRequestIsRefused : Prop :=
  ∀ (s : State) (q : Request) (rest : List Interaction), s.pending = some q → s.CompletionDue rest →
    (0x10 ≤ q.op.toNat ∨ (0x0C ≤ q.op.toNat ∧ q.op.toNat ≤ 0x0F)) →
    step s = .next
      { rom := s.rom, pending := none, rBus := none, refusalMark := true,
        observation := s.observation ++ [(q, .refused (.reservedOp q.op))], inputs := rest }

/-- 10_state.md R29 and 30_encoding.md R68, `accept`: an idle block takes the request the host presents, whole; a block that
holds a request does not, and the request waits at the head of the list (log 1). That accepting leaves the response bus without a
value is log 2, and that a refusal of the request held is a next state is log 4. -/
def Obligations.AcceptOnlyWhenIdle : Prop :=
  ∀ (s : State) (q : Request) (rest : List Interaction), s.inputs = .request q :: rest →
    (s.pending = none → step s = .next { s with pending := some q, rBus := none, inputs := rest }) ∧
    (∀ p, s.pending = some p → ∃ t, step s = .next t ∧ t.pending = none ∧ t.inputs = .request q :: rest)

/-- 70_reset_and_hazards.md R160: reset leaves the block idle, and a pending request gets no outcome. R160 leaves the bus values
unspecified; that the response bus has no value is the model's choice (log 2). The list the reset stands on is log 1, and
that the run's mark and observation stay is the model's reading (log 5). -/
def Obligations.ResetDiscardsPending : Prop :=
  ∀ (s : State) (rest : List Interaction), s.inputs = .reset :: rest →
    step s = .next { s with pending := none, rBus := none, inputs := rest }

/-- 10_state.md R30, R27: what reset leaves, and the four constants of 00_scope.md R7, in decimal. The empty bus and the empty
lists are log 2 and log 3. -/
def Obligations.ResetStateValues : Prop :=
  State.reset.pending = none ∧ State.reset.refusalMark = false ∧ State.reset.rBus = none ∧
  State.reset.observation = [] ∧ State.reset.inputs = [] ∧
  ∀ s : State,
    s.rom.magicInvSqrt32.toNat = 1597488759 ∧ s.rom.magicSqrt32.toNat = 532496253 ∧
    s.rom.magicInvSqrt64.toNat = 6910483146024060928 ∧ s.rom.magicSqrt64.toNat = 2303494382008020224

/-- The state after reset is sound (10_state.md R28, 60_exceptions.md R141, R142); its empty observation is log 3 and its bus
without a value log 2. -/
def Obligations.ResetIsSound : Prop := State.reset.Sound

/-- Every step keeps soundness, from every sound state: all outcomes observed are the rules' (R28, R142), the mark is set exactly
when a request was refused (R141), a bus value is the last response (R25). That the bus has a value only right after a
response is log 2, that a refusal is a next state is log 4, that a reset keeps the mark and the observation is log 5. -/
def Obligations.StepKeepsSound : Prop :=
  ∀ s t : State, s.Sound → step s = .next t → t.Sound

/-- 60_exceptions.md R141: the mark is kept, and only the refusal of a pending reserved word sets it. That a reset in the
middle of a run keeps it too is the model's reading (log 5), and the empty bus after a refusal is log 2. -/
def Obligations.RefusalMarkIsKept : Prop :=
  ∀ s t : State, step s = .next t →
    (s.refusalMark = true → t.refusalMark = true) ∧
    (s.refusalMark = false → t.refusalMark = true →
      ∃ q, s.pending = some q ∧ decode q = .error (.reservedOp q.op) ∧ t.pending = none ∧ t.rBus = none)

/-- 60_exceptions.md R142 and 30_encoding.md R66: a value on the response bus after a step is the answer to a request that was
pending and is defined. That no earlier value stays on the bus is the model's choice (log 2). -/
def Obligations.ResponsesAnswerDefinedRequests : Prop :=
  ∀ (s t : State) (r : Bits64), step s = .next t → t.rBus = some r →
    ∃ q i, s.pending = some q ∧ decode q = .ok i ∧ r = approx s.rom i.dir i.prec i.nr q.y ∧
      t.observation = s.observation ++ [(q, .responded r)]

/-- 10_state.md R28: two states that hold the same request and in which its completion is due, in the same form or not, get the
same response and the same outcome for it, whatever else they hold. The three forms in which a completion is due are log 1,
the bus without a value after a refusal is log 2, and the refusal as a next state is log 4. -/
def Obligations.OutcomeDependsOnRequestOnly : Prop :=
  ∀ (s t : State) (q : Request) (u v : List Interaction),
    s.pending = some q → t.pending = some q → s.CompletionDue u → t.CompletionDue v →
    ∃ s' t' o, step s = .next s' ∧ step t = .next t' ∧ s'.rBus = t'.rBus ∧
      s'.observation = s.observation ++ [(q, o)] ∧ t'.observation = t.observation ++ [(q, o)]

/-- 30_encoding.md R62: with `PREC = 0`, `Y[63:32]` affects neither the result nor the decision to refuse. -/
def Obligations.UpperOperandHalfIsIgnored : Prop :=
  ∀ p q : Request, p.op = q.op → p.op.getLsbD 1 = false → p.y.extractLsb' 0 32 = q.y.extractLsb' 0 32 →
    outcomeOf p = outcomeOf q

/-- 20_memory.md R43: a single-precision result has `R[63:32] = 0`; in a state that holds no request too (log 15). -/
def Obligations.SingleResultUpperHalfIsZero : Prop :=
  ∀ (i : Instr) (s t : State) (r : Bits64), i.prec = .p32 → exec i s = .next t → t.rBus = some r →
    r.extractLsb' 32 32 = 0#32

/-- 40_approx.md R82: the halving copies the sign bit, is the floor of half the signed reading, and is not the logical shift when
the sign bit is set. -/
def Obligations.HalvingIsArithmetic : Prop :=
  (∀ v : Bits32, asr1 v = BitVec.ofInt 32 (v.toInt / 2) ∧ asr1 v = v.extractLsb' 31 1 ++ v.extractLsb' 1 31 ∧
    (v.msb = true → asr1 v ≠ lsr1 v)) ∧
  (∀ v : Bits64, asr1 v = BitVec.ofInt 64 (v.toInt / 2) ∧ asr1 v = v.extractLsb' 63 1 ++ v.extractLsb' 1 63 ∧
    (v.msb = true → asr1 v ≠ lsr1 v)) ∧
  asr1 (0xFFFFFFFF#32) = 0xFFFFFFFF#32 ∧ seedInv64 {} 0xFFF8000000000000#64 = 0x5FEAF7CED9168800#64

/-- 40_approx.md R84 to R87: the four seeds, for every pattern: the constant minus or plus the arithmetic shift, modulo
`2^N`, said on the unsigned readings. -/
def Obligations.SeedFunctions : Prop :=
  (∀ y : Bits32,
    seedInv32 {} y = BitVec.ofInt 32 (0x5F37BE77 - y.toInt / 2) ∧
    seedSqrt32 {} y = BitVec.ofInt 32 (0x1FBD3F7D + y.toInt / 2)) ∧
  (∀ y : Bits64,
    seedInv64 {} y = BitVec.ofInt 64 (0x5FE6F7CED9168800 - y.toInt / 2) ∧
    seedSqrt64 {} y = BitVec.ofInt 64 (0x1FF7A7EF9DB22D00 + y.toInt / 2))

/-- 40_approx.md R94: where the modular wrap takes effect, for both precisions. -/
def Obligations.SeedWrapRanges : Prop :=
  (∀ y : Bits32,
    (seedSqrt32 {} y).toInt = 532496253 + y.toInt / 2 ∧
    -541245571 ≤ 532496253 + y.toInt / 2 ∧ 532496253 + y.toInt / 2 ≤ 1606238076 ∧
    ((seedInv32 {} y).toInt ≠ 1597488759 - y.toInt / 2 ↔ y.toInt ≤ 2 * (1597488759 - 2 ^ 31) + 1) ∧
    (y.toInt ≤ 2 * (1597488759 - 2 ^ 31) + 1 ↔ 0x80000000 ≤ y.toNat ∧ y.toNat ≤ 0xBE6F7CEF)) ∧
  (∀ y : Bits64,
    (seedSqrt64 {} y).toInt = 2303494382008020224 + y.toInt / 2 ∧
    -2308191636419367680 ≤ 2303494382008020224 + y.toInt / 2 ∧
    2303494382008020224 + y.toInt / 2 ≤ 6915180400435408127 ∧
    ((seedInv64 {} y).toInt ≠ 6910483146024060928 - y.toInt / 2 ↔ y.toInt ≤ 2 * (6910483146024060928 - 2 ^ 63) + 1) ∧
    (y.toInt ≤ 2 * (6910483146024060928 - 2 ^ 63) + 1 ↔ 0x8000000000000000 ≤ y.toNat ∧ y.toNat ≤ 0xBFCDEF9DB22D1001)) ∧
  seedInv32 {} 0xBE6F7CEF#32 = 0x80000000#32 ∧ seedInv32 {} 0xBE6F7CF0#32 = 0x7FFFFFFF#32

/-- 40_approx.md R95: with the sign bit clear the seed is a positive finite normal number, within the ranges given. -/
def Obligations.SeedRangesOfNonnegativePatterns : Prop :=
  (∀ y : Bits32, y.msb = false →
    (0x1FBD3F7D ≤ (seedSqrt32 {} y).toNat ∧ (seedSqrt32 {} y).toNat ≤ 0x5FBD3F7C) ∧
    (0x1F37BE78 ≤ (seedInv32 {} y).toNat ∧ (seedInv32 {} y).toNat ≤ 0x5F37BE77) ∧
    (∀ dir, (seed32 {} dir y).msb = false ∧ isNormal binary32 (seed32 {} dir y) = true)) ∧
  (∀ y : Bits64, y.msb = false →
    (0x1FF7A7EF9DB22D00 ≤ (seedSqrt64 {} y).toNat ∧ (seedSqrt64 {} y).toNat ≤ 0x5FF7A7EF9DB22CFF) ∧
    (0x1FE6F7CED9168801 ≤ (seedInv64 {} y).toNat ∧ (seedInv64 {} y).toNat ≤ 0x5FE6F7CED9168800) ∧
    (∀ dir, (seed64 {} dir y).msb = false ∧ isNormal binary64 (seed64 {} dir y) = true))

/-- 40_approx.md R89: a seed that encodes a NaN or an infinity comes only from an operand with the sign bit set; and such
operands exist. -/
def Obligations.SeedNaNNeedsSignBit : Prop :=
  (∀ (dir : Dir) (y : Bits32),
    (isNaN binary32 (seed32 {} dir y) = true ∨ isInf binary32 (seed32 {} dir y) = true) → y.msb = true) ∧
  (∀ (dir : Dir) (y : Bits64),
    (isNaN binary64 (seed64 {} dir y) = true ∨ isInf binary64 (seed64 {} dir y) = true) → y.msb = true) ∧
  seedSqrt32 {} 0xC0058106#32 = 0xFFC00000#32 ∧ isNaN binary32 0xFFC00000#32 = true

/-- 40_approx.md R96: the seeds are monotone in the bit pattern when the sign bit is clear, and two patterns that differ only in
bit 0 give the same seed. -/
def Obligations.SeedsAreMonotone : Prop :=
  (∀ a b : Bits32, a.msb = false → b.msb = false → a.toNat < b.toNat →
    (seedSqrt32 {} a).toNat ≤ (seedSqrt32 {} b).toNat ∧ (seedInv32 {} b).toNat ≤ (seedInv32 {} a).toNat) ∧
  (∀ a b : Bits64, a.msb = false → b.msb = false → a.toNat < b.toNat →
    (seedSqrt64 {} a).toNat ≤ (seedSqrt64 {} b).toNat ∧ (seedInv64 {} b).toNat ≤ (seedInv64 {} a).toNat) ∧
  (∀ (dir : Dir) (a b : Bits32), a.extractLsb' 1 31 = b.extractLsb' 1 31 → seed32 {} dir a = seed32 {} dir b) ∧
  (∀ (dir : Dir) (a b : Bits64), a.extractLsb' 1 63 = b.extractLsb' 1 63 → seed64 {} dir a = seed64 {} dir b)

/-- 40_approx.md R96: with `NR >= 1` monotonicity fails: for `FRSQRTA.S.NR1`, `FRSQRTA.S.NR2` and `FSQRTA.S.NR1` there are
adjacent positive normal patterns, both of them normal, whose results move the wrong way, by 1 or 2 ulp. -/
def Obligations.RefinedResultsAreNotMonotone : Prop :=
  let adjacent := fun a : Bits32 =>
    a.msb = false ∧ (a + 1).msb = false ∧ isNormal binary32 a = true ∧ isNormal binary32 (a + 1) = true
  let above := fun r r' : Bits64 => r'.toNat < r.toNat ∧ r.toNat ≤ r'.toNat + 2
  (∃ a : Bits32, adjacent a ∧
    above (approx32 {} .inv 1 ((a + 1).setWidth 64)) (approx32 {} .inv 1 (a.setWidth 64))) ∧
  (∃ a : Bits32, adjacent a ∧
    above (approx32 {} .inv 2 ((a + 1).setWidth 64)) (approx32 {} .inv 2 (a.setWidth 64))) ∧
  (∃ a : Bits32, adjacent a ∧
    above (approx32 {} .sqrt 1 (a.setWidth 64)) (approx32 {} .sqrt 1 ((a + 1).setWidth 64)))

/-- 41_refine.md R116 and R117: the two steps are the source's formulas, in the order written, each operation on its
own, and R115's NaN where the result is one. -/
def Obligations.RefinementFormulas : Prop :=
  (∀ y g : Bits32,
    let F := binary32
    let t3 := F.fmul (F.fmul (F.fmul (F.value 0x3F000000#32) (F.value y)) (F.value g)) (F.value g)
    let t5 := F.fmul (F.value g) (F.fsub (F.value 0x3FC00000#32) t3)
    let c := F.fdiv (F.fmul (F.value 0x3F000000#32) (F.value y)) (F.value g)
    let d := F.fadd (F.fmul (F.value 0x3F000000#32) (F.value g)) c
    refineInv32 y g = (F.encode t5).getD (nanResult32 .inv y g) ∧
    refineSqrt32 y g = (F.encode d).getD (nanResult32 .sqrt y g)) ∧
  (∀ y g : Bits64,
    let F := binary64
    let t3 := F.fmul (F.fmul (F.fmul (F.value 0x3FE0000000000000#64) (F.value y)) (F.value g)) (F.value g)
    let t5 := F.fmul (F.value g) (F.fsub (F.value 0x3FF8000000000000#64) t3)
    let c := F.fdiv (F.fmul (F.value 0x3FE0000000000000#64) (F.value y)) (F.value g)
    let d := F.fadd (F.fmul (F.value 0x3FE0000000000000#64) (F.value g)) c
    refineInv64 y g = (F.encode t5).getD (nanResult64 .inv y g) ∧
    refineSqrt64 y g = (F.encode d).getD (nanResult64 .sqrt y g))

/-- 41_refine.md R116: its corner cases, for every operand and estimate that meets them, in both precisions. The third is said
where `0.5 * y` does not round to zero: log 14. -/
def Obligations.InverseStepCornerCases : Prop := binary32.InvStepCorners ∧ binary64.InvStepCorners

/-- 41_refine.md R117: its corner cases, for every operand and estimate that meets them, in both precisions. Those about a
halved datum are said where it does not round to zero: log 14. -/
def Obligations.SqrtStepCornerCases : Prop := binary32.SqrtStepCorners ∧ binary64.SqrtStepCorners

/-- 41_refine.md R115: a step's output is a NaN exactly when its IEEE-754 result is one, as it is when `y` or `g` is a NaN; the
output is then `NAN_RESULT_P` of the step's own arguments, of which nothing but that it is a NaN is known; and a second step on
it gives a NaN again. -/
def Obligations.RefinementNaNResults : Prop :=
  (∀ (dir : Dir) (y g : Bits32),
    let v := match dir with | .inv => invStep binary32 y g | .sqrt => sqrtStep binary32 y g
    isNaN binary32 (nanResult32 dir y g) = true ∧
    (v = .nan → refine32 dir y g = nanResult32 dir y g) ∧
    (isNaN binary32 (refine32 dir y g) = true ↔ v = .nan) ∧
    ((isNaN binary32 y = true ∨ isNaN binary32 g = true) → v = .nan) ∧
    (v = .nan → refine32 dir y (refine32 dir y g) = nanResult32 dir y (nanResult32 dir y g))) ∧
  (∀ (dir : Dir) (y g : Bits64),
    let v := match dir with | .inv => invStep binary64 y g | .sqrt => sqrtStep binary64 y g
    isNaN binary64 (nanResult64 dir y g) = true ∧
    (v = .nan → refine64 dir y g = nanResult64 dir y g) ∧
    (isNaN binary64 (refine64 dir y g) = true ↔ v = .nan) ∧
    ((isNaN binary64 y = true ∨ isNaN binary64 g = true) → v = .nan) ∧
    (v = .nan → refine64 dir y (refine64 dir y g) = nanResult64 dir y (nanResult64 dir y g)))

/-- 41_refine.md R118: with `NR = 2` the step is applied twice to the same operand, the second time to the first output; and
its two examples. -/
def Obligations.SecondStepTakesTheFirstOutput : Prop :=
  (∀ (dir : Dir) (Y : Bits64),
    approx32 {} dir 2 Y =
      (refine32 dir (Y.extractLsb' 0 32) ((approx32 {} dir 1 Y).extractLsb' 0 32)).setWidth 64 ∧
    approx64 {} dir 2 Y = refine64 dir Y (approx64 {} dir 1 Y)) ∧
  approx32 {} .sqrt 2 0x43800000#64 = 0x41800000#64 ∧ approx32 {} .inv 2 0x43800000#64 = 0x3D7FFFC3#64

/-- 41_refine.md R111, R112: the product of two finite data is their exact product rounded once with roundTiesToEven, subnormals
included, in both precisions. -/
def Obligations.MultiplicationRoundsOnce : Prop := binary32.MulRounds ∧ binary64.MulRounds

/-- 41_refine.md R111, R112: the sum and the difference of two finite data are the exact ones rounded once with
roundTiesToEven, subnormals included, in both precisions. -/
def Obligations.AdditionRoundsOnce : Prop := binary32.AddRounds ∧ binary64.AddRounds

/-- 41_refine.md R111, R112: the quotient of two finite data, the second nonzero, is the exact one rounded once with
roundTiesToEven, subnormals included, in both precisions. -/
def Obligations.DivisionRoundsOnce : Prop := binary32.DivRounds ∧ binary64.DivRounds

/-- 41_refine.md R113: the special-value rules, in both precisions; two zeros of one sign keep it (log 7). -/
def Obligations.SpecialValueRules : Prop := binary32.SpecialValues ∧ binary64.SpecialValues

/-- 41_refine.md R119, as a lemma from R111: halving is exact where the exact half is a normal number (log 14). -/
def Obligations.HalvingIsExact : Prop := binary32.HalvesExactly ∧ binary64.HalvesExactly

/-- 00_scope.md R11, R15: reading a datum and encoding it are inverse, for every encoding, NaNs included, and for every datum
of the format, in both precisions; with R15's quiet bit. -/
def Obligations.EncodingReadsBack : Prop := binary32.EncodesItsData ∧ binary64.EncodesItsData

/-- 70_reset_and_hazards.md R164: a completion comes after a finite delay of any length, and the request gets its outcome. The
delays, the completion and what is left of the list are the model's own form (log 1), as is that the delay ends (log 12), and
the outcome of a reserved word as a next state is log 4. -/
def Obligations.DelayedRequestCompletes : Prop :=
  ∀ (n : Nat) (s : State) (q : Request) (rest : List Interaction), s.pending = some q →
    s.inputs = List.replicate n .delay ++ .completion :: rest →
    ∃ t : State, Sys2Proof.core.run (n + 1) s = .next t ∧ t.pending = none ∧ t.inputs = rest ∧
      t.observation = s.observation ++ [(q, outcomeOf q)]

/-- 20_memory.md R47 (b) and 70_reset_and_hazards.md R165: from any idle state, a host that issues any sequence of requests,
each after the outcome of the one before, observes their outcomes in the order issued, each the rules' function of its own
request; then the run has ended. The requests wait at the head of the host's list, which is the model's own form (log 1), and a
refusal is a next state (log 4). -/
def Obligations.RunObservesEachOutcomeInOrder : Prop :=
  ∀ (qs : List Request) (s : State), s.pending = none → s.inputs = qs.map .request →
    ∃ t : State, Sys2Proof.core.run (2 * qs.length) s = .next t ∧ t.finished = true ∧
      t.observation = s.observation ++ qs.map (fun q => (q, outcomeOf q)) ∧
      t.refusalMark = (s.refusalMark || qs.any fun q => (outcomeOf q).isRefusal)

/-- A run that has ended by 70_reset_and_hazards.md R165 (no request left to issue, nothing pending) adds nothing: whatever else
is on the host's list, a step takes one interaction off it, clears the bus and changes nothing else, and the run is still
ended. That a step with nothing to do is a next state is the model's choice (log 11), as are the list (log 1) and the bus
without a value (log 2). -/
def Obligations.FinishedRunStaysFinished : Prop :=
  ∀ s : State, s.finished = true →
    step s = .next { s with rBus := none, inputs := s.inputs.tail } ∧
    State.finished { s with rBus := none, inputs := s.inputs.tail } = true

/-- 60_exceptions.md R150 and 20_memory.md R47 (c): stepping one instance leaves every other as it was, and the steps of two
instances commute. The list of instances is the model's form of them (log 16); that every step is a next state is log 4 and
log 11. -/
def Obligations.InstancesAreIndependent : Prop :=
  ∀ (p : Platform) (j k : Nat), j ≠ k →
    ∃ pj pk pjk, stepAt j p = .next pj ∧ stepAt k p = .next pk ∧ stepAt k pj = .next pjk ∧ stepAt j pk = .next pjk ∧
      (∀ l, l ≠ j → pj[l]? = p[l]?)

/-- 30_encoding.md R69: every line the assembler takes is a defined request, and a `.S` line has zero upper operand bits. Which
spellings of a literal it takes is log 10. -/
def Obligations.AssembledLinesAreDefined : Prop :=
  ∀ (line : List Char) (q : Request), assemble line = .ok q →
    (∃ i, decode q = .ok i) ∧ (q.op.getLsbD 1 = false → q.y.extractLsb' 32 32 = 0#32)

/-- 30_encoding.md R70: each pseudo-instruction is the same request as its expansion, whatever its operand. -/
def Obligations.PseudoInstructionsExpand : Prop :=
  ∀ operand : List Char,
    assemble ("approx_inverse_sqrt_f32 ".toList ++ operand) = assemble ("FRSQRTA.S ".toList ++ operand) ∧
    assemble ("approx_sqrt_f32 ".toList ++ operand) = assemble ("FSQRTA.S ".toList ++ operand) ∧
    assemble ("approx_inverse_sqrt_f64 ".toList ++ operand) = assemble ("FRSQRTA.D ".toList ++ operand) ∧
    assemble ("approx_sqrt_f64 ".toList ++ operand) = assemble ("FSQRTA.D ".toList ++ operand) ∧
    assemble ("FRSQRTA.S.NR0 ".toList ++ operand) = assemble ("FRSQRTA.S ".toList ++ operand) ∧
    assemble ("FSQRTA.S.NR0 ".toList ++ operand) = assemble ("FSQRTA.S ".toList ++ operand) ∧
    assemble ("FRSQRTA.D.NR0 ".toList ++ operand) = assemble ("FRSQRTA.D ".toList ++ operand) ∧
    assemble ("FSQRTA.D.NR0 ".toList ++ operand) = assemble ("FSQRTA.D ".toList ++ operand)

/-- From 40_approx.md R84 and R85: without refinement both single-precision results are within 6% of the true root of every
positive normal operand; said on squares. R97 gives the bound 0.06 for the source's sweep only; that it holds of every
positive normal operand is the model's extension. -/
def Obligations.SingleSeedsWithinSixPercent : Prop :=
  ∀ y : Bits32, y.msb = false → isNormal binary32 y = true →
    let x := (binary32.value y).toRat
    let r := (binary32.value (seedSqrt32 {} y)).toRat
    let v := (binary32.value (seedInv32 {} y)).toRat
    (0 < r ∧ (94 / 100) ^ 2 * x < r ^ 2 ∧ r ^ 2 < (106 / 100) ^ 2 * x) ∧
    (0 < v ∧ (94 / 100) ^ 2 < v ^ 2 * x ∧ v ^ 2 * x < (106 / 100) ^ 2)

/-- From 40_approx.md R86 and R87: without refinement both double-precision results are within 6% of the true root of every
positive normal operand; said on squares. R97 gives the bound 0.06 for the source's sweep only; that it holds of every
positive normal operand is the model's extension. -/
def Obligations.DoubleSeedsWithinSixPercent : Prop :=
  ∀ y : Bits64, y.msb = false → isNormal binary64 y = true →
    let x := (binary64.value y).toRat
    let r := (binary64.value (seedSqrt64 {} y)).toRat
    let v := (binary64.value (seedInv64 {} y)).toRat
    (0 < r ∧ (94 / 100) ^ 2 * x < r ^ 2 ∧ r ^ 2 < (106 / 100) ^ 2 * x) ∧
    (0 < v ∧ (94 / 100) ^ 2 < v ^ 2 * x ∧ v ^ 2 * x < (106 / 100) ^ 2)
end

