-- ==== Sys2Proof/Laws/Decode.lean ====
section
/-! SUPPORT. What `decodeOp`, `instrOf` and `decode` can answer. -/

namespace Sys2Proof

/-- A defined word has at most `NR_MAX` refinement steps. -/
theorem decodeOp_nr_le {op : Bits8} {f : OpFields} (h : decodeOp op = some f) : f.nr ≤ Config.nrMax := by
  unfold decodeOp at h
  split at h
  · cases h
  · dsimp only at h
    split at h
    · cases h
    · cases h
      simp only
      omega

/-- With a legal refinement count R63 has a row. -/
theorem instrOf_isSome (dir : Dir) (prec : Prec) (y : Bits64) {nr : Nat} (h : nr ≤ Config.nrMax) :
    ∃ i, instrOf dir prec nr y = some i := by
  obtain rfl | rfl | rfl : nr = 0 ∨ nr = 1 ∨ nr = 2 := by simp only [Config.nrMax] at h; omega
  all_goals cases dir <;> cases prec <;> exact ⟨_, rfl⟩

/-- The instruction `instrOf` gives has the fields and the operand it was given. -/
theorem instrOf_fields {dir : Dir} {prec : Prec} {nr : Nat} {y : Bits64} {i : Instr}
    (h : instrOf dir prec nr y = some i) : i.dir = dir ∧ i.prec = prec ∧ i.nr = nr ∧ i.y = y := by
  match nr with
  | 0 => cases dir <;> cases prec <;> cases h <;> exact ⟨rfl, rfl, rfl, rfl⟩
  | 1 => cases dir <;> cases prec <;> cases h <;> exact ⟨rfl, rfl, rfl, rfl⟩
  | 2 => cases dir <;> cases prec <;> cases h <;> exact ⟨rfl, rfl, rfl, rfl⟩
  | n + 3 => cases dir <;> cases prec <;> cases h

/-- R63's `OP` column is read back as its `DIR`, `PREC` and `NR` columns. -/
theorem decodeOp_encode (i : Instr) : decodeOp (encode i).op = some ⟨i.dir, i.prec, i.nr⟩ := by
  cases i <;> simp only [encode, Instr.dir, Instr.prec, Instr.nr] <;> decide

/-- `decode` rejects exactly where `decodeOp` does, and names the word. -/
theorem decode_error_iff {q : Request} {why : Reject} :
    decode q = .error why ↔ decodeOp q.op = none ∧ why = .reservedOp q.op := by
  unfold decode
  cases hd : decodeOp q.op with
  | none => simp [eq_comm]
  | some f =>
    obtain ⟨i, hi⟩ := instrOf_isSome f.dir f.prec q.y (decodeOp_nr_le hd)
    simp [hi]

/-- Where `decode` accepts, the instruction has the word's fields and the request's operand. -/
theorem decode_ok_fields {q : Request} {i : Instr} (h : decode q = .ok i) :
    decodeOp q.op = some ⟨i.dir, i.prec, i.nr⟩ ∧ i.y = q.y := by
  unfold decode at h
  cases hd : decodeOp q.op with
  | none => simp [hd] at h
  | some f =>
    obtain ⟨j, hj⟩ := instrOf_isSome f.dir f.prec q.y (decodeOp_nr_le hd)
    simp only [hd, hj, Except.ok.injEq] at h
    subst h
    obtain ⟨h1, h2, h3, h4⟩ := instrOf_fields hj
    exact ⟨by rw [h1, h2, h3], h4⟩

end Sys2Proof
end

