-- ==== Sys2Proof/Laws/Float.lean ====
section
/-! SUPPORT. What the floating-point operations do with a NaN, and what `round` can answer. -/

namespace Sys2Proof.Machine

@[simp] theorem Datum.value_nan (s : Bool) (f : Nat) : (Datum.nan s f).value = .nan := rfl
@[simp] theorem Datum.value_inf (s : Bool) : (Datum.inf s).value = .inf s := rfl
@[simp] theorem Datum.value_fin (s : Bool) (m : Nat) (e : Int) : (Datum.fin s m e).value = .fin s m e := rfl

namespace Format

@[simp] theorem fmul_nan_left {w : Nat} (F : Format w) (a : FloatVal) : F.fmul .nan a = .nan := rfl
@[simp] theorem fmul_nan_right {w : Nat} (F : Format w) (a : FloatVal) : F.fmul a .nan = .nan := by cases a <;> rfl
@[simp] theorem fdiv_nan_left {w : Nat} (F : Format w) (a : FloatVal) : F.fdiv .nan a = .nan := rfl
@[simp] theorem fdiv_nan_right {w : Nat} (F : Format w) (a : FloatVal) : F.fdiv a .nan = .nan := by cases a <;> rfl
@[simp] theorem fadd_nan_left {w : Nat} (F : Format w) (a : FloatVal) : F.fadd .nan a = .nan := rfl
@[simp] theorem fadd_nan_right {w : Nat} (F : Format w) (a : FloatVal) : F.fadd a .nan = .nan := by cases a <;> rfl
@[simp] theorem negate_nan : negate .nan = .nan := rfl
@[simp] theorem negate_negate (a : FloatVal) : negate (negate a) = a := by cases a <;> simp [negate]
@[simp] theorem fsub_nan_left {w : Nat} (F : Format w) (a : FloatVal) : F.fsub .nan a = .nan := rfl
@[simp] theorem fsub_nan_right {w : Nat} (F : Format w) (a : FloatVal) : F.fsub a .nan = .nan := by simp [fsub]

/-- Rounding a number never gives a NaN. -/
@[simp] theorem round_ne_nan {w : Nat} (F : Format w) (neg : Bool) (num den : Nat) (e : Int) :
    F.round neg num den e ≠ .nan := by
  unfold round
  split
  · simp
  · dsimp only
    split
    · split <;> simp
    · split <;> simp

@[simp] theorem encode_nan {w : Nat} (F : Format w) : F.encode .nan = none := rfl
@[simp] theorem encode_inf {w : Nat} (F : Format w) (s : Bool) : F.encode (.inf s) = some (F.enc (.inf s)) := rfl
@[simp] theorem encode_fin {w : Nat} (F : Format w) (s : Bool) (m : Nat) (e : Int) :
    F.encode (.fin s m e) = some (F.enc (.fin s m e)) := rfl

/-- Only a NaN result has no encoding. -/
@[simp] theorem encode_eq_none {w : Nat} (F : Format w) (v : FloatVal) : F.encode v = none ↔ v = .nan := by
  cases v <;> simp

/-- A datum whose value is no NaN is encoded through its value. -/
theorem encode_value_of_ne_nan {w : Nat} (F : Format w) {d : Datum} (h : d.value ≠ .nan) :
    F.encode d.value = some (F.enc d) := by
  cases d with
  | nan neg frac => exact absurd rfl h
  | inf neg => rfl
  | fin neg m e => rfl

/-- Where a step's result is a NaN, its output is R115's. -/
@[simp] theorem stepResult_nan {w : Nat} (F : Format w) (n : BitVec w) : stepResult F n .nan = n := rfl

/-- Where it is not, its output is the result's encoding. -/
theorem stepResult_of_encode {w : Nat} {F : Format w} {n b : BitVec w} {v : FloatVal} (h : F.encode v = some b) :
    stepResult F n v = b := by simp [stepResult, h]

end Format
end Sys2Proof.Machine
end

