-- ==== Sys2Proof/Laws/PerInstr.lean ====
section
/-! SUPPORT. The family `OpLayout` (LAWS.json): the operation word each instruction is encoded with is laid out as R60
says, is a defined one, and leaves the operand as it stands. -/

-- One theorem at a time: many at once need more thread stacks than a build under a memory limit may have.
set_option Elab.async false

namespace Sys2Proof.Laws.OpLayout

/-- R60: `RSV ++ NR ++ PREC ++ DIR`, with `RSV = 0000` and `NR` not the reserved value. -/
def Statement (i : Instr) : Prop :=
  (encode i).op = 0#4 ++ BitVec.ofNat 2 i.nr ++ BitVec.ofBool (i.prec == .p64) ++ BitVec.ofBool (i.dir == .inv) ∧
  (encode i).wellFormed = true ∧ (encode i).y = i.y

theorem frsqrtaS (y : Bits64) : Statement (.frsqrtaS y) := ⟨by simp only [Instr.nr, Instr.prec, Instr.dir, encode]; decide, by simp only [Request.wellFormed, encode]; decide, rfl⟩
theorem fsqrtaS (y : Bits64) : Statement (.fsqrtaS y) := ⟨by simp only [Instr.nr, Instr.prec, Instr.dir, encode]; decide, by simp only [Request.wellFormed, encode]; decide, rfl⟩
theorem frsqrtaD (y : Bits64) : Statement (.frsqrtaD y) := ⟨by simp only [Instr.nr, Instr.prec, Instr.dir, encode]; decide, by simp only [Request.wellFormed, encode]; decide, rfl⟩
theorem fsqrtaD (y : Bits64) : Statement (.fsqrtaD y) := ⟨by simp only [Instr.nr, Instr.prec, Instr.dir, encode]; decide, by simp only [Request.wellFormed, encode]; decide, rfl⟩
theorem frsqrtaSNr1 (y : Bits64) : Statement (.frsqrtaSNr1 y) := ⟨by simp only [Instr.nr, Instr.prec, Instr.dir, encode]; decide, by simp only [Request.wellFormed, encode]; decide, rfl⟩
theorem fsqrtaSNr1 (y : Bits64) : Statement (.fsqrtaSNr1 y) := ⟨by simp only [Instr.nr, Instr.prec, Instr.dir, encode]; decide, by simp only [Request.wellFormed, encode]; decide, rfl⟩
theorem frsqrtaDNr1 (y : Bits64) : Statement (.frsqrtaDNr1 y) := ⟨by simp only [Instr.nr, Instr.prec, Instr.dir, encode]; decide, by simp only [Request.wellFormed, encode]; decide, rfl⟩
theorem fsqrtaDNr1 (y : Bits64) : Statement (.fsqrtaDNr1 y) := ⟨by simp only [Instr.nr, Instr.prec, Instr.dir, encode]; decide, by simp only [Request.wellFormed, encode]; decide, rfl⟩
theorem frsqrtaSNr2 (y : Bits64) : Statement (.frsqrtaSNr2 y) := ⟨by simp only [Instr.nr, Instr.prec, Instr.dir, encode]; decide, by simp only [Request.wellFormed, encode]; decide, rfl⟩
theorem fsqrtaSNr2 (y : Bits64) : Statement (.fsqrtaSNr2 y) := ⟨by simp only [Instr.nr, Instr.prec, Instr.dir, encode]; decide, by simp only [Request.wellFormed, encode]; decide, rfl⟩
theorem frsqrtaDNr2 (y : Bits64) : Statement (.frsqrtaDNr2 y) := ⟨by simp only [Instr.nr, Instr.prec, Instr.dir, encode]; decide, by simp only [Request.wellFormed, encode]; decide, rfl⟩
theorem fsqrtaDNr2 (y : Bits64) : Statement (.fsqrtaDNr2 y) := ⟨by simp only [Instr.nr, Instr.prec, Instr.dir, encode]; decide, by simp only [Request.wellFormed, encode]; decide, rfl⟩

end Sys2Proof.Laws.OpLayout
end

