-- ==== Sys2Proof/Laws/State.lean ====
section
/-! SUPPORT. One lemma per field and per named operation of Machine/Ops.lean and Machine/Turn.lean, so that no later
proof unfolds a record update. -/

namespace Sys2Proof.Machine.State

@[simp] theorem quiet_rom (s : State) : s.quiet.rom = s.rom := rfl
@[simp] theorem quiet_pending (s : State) : s.quiet.pending = s.pending := rfl
@[simp] theorem quiet_rBus (s : State) : s.quiet.rBus = none := rfl
@[simp] theorem quiet_refusalMark (s : State) : s.quiet.refusalMark = s.refusalMark := rfl
@[simp] theorem quiet_observation (s : State) : s.quiet.observation = s.observation := rfl
@[simp] theorem quiet_inputs (s : State) : s.quiet.inputs = s.inputs := rfl

@[simp] theorem accept_rom (q : Request) (s : State) : (s.accept q).rom = s.rom := rfl
@[simp] theorem accept_pending (q : Request) (s : State) : (s.accept q).pending = some q := rfl
@[simp] theorem accept_rBus (q : Request) (s : State) : (s.accept q).rBus = none := rfl
@[simp] theorem accept_refusalMark (q : Request) (s : State) : (s.accept q).refusalMark = s.refusalMark := rfl
@[simp] theorem accept_observation (q : Request) (s : State) : (s.accept q).observation = s.observation := rfl
@[simp] theorem accept_inputs (q : Request) (s : State) : (s.accept q).inputs = s.inputs := rfl

@[simp] theorem respond_rom (r : Bits64) (s : State) : (s.respond r).rom = s.rom := rfl
@[simp] theorem respond_pending (r : Bits64) (s : State) : (s.respond r).pending = none := rfl
@[simp] theorem respond_rBus (r : Bits64) (s : State) : (s.respond r).rBus = some r := rfl
@[simp] theorem respond_refusalMark (r : Bits64) (s : State) : (s.respond r).refusalMark = s.refusalMark := rfl
@[simp] theorem respond_observation (r : Bits64) (s : State) : (s.respond r).observation = s.observed (.responded r) := rfl
@[simp] theorem respond_inputs (r : Bits64) (s : State) : (s.respond r).inputs = s.inputs := rfl

@[simp] theorem refuse_rom (why : Reject) (s : State) : (s.refuse why).rom = s.rom := rfl
@[simp] theorem refuse_pending (why : Reject) (s : State) : (s.refuse why).pending = none := rfl
@[simp] theorem refuse_rBus (why : Reject) (s : State) : (s.refuse why).rBus = none := rfl
@[simp] theorem refuse_refusalMark (why : Reject) (s : State) : (s.refuse why).refusalMark = true := rfl
@[simp] theorem refuse_observation (why : Reject) (s : State) : (s.refuse why).observation = s.observed (.refused why) := rfl
@[simp] theorem refuse_inputs (why : Reject) (s : State) : (s.refuse why).inputs = s.inputs := rfl

@[simp] theorem resetBlock_rom (s : State) : s.resetBlock.rom = s.rom := rfl
@[simp] theorem resetBlock_pending (s : State) : s.resetBlock.pending = none := rfl
@[simp] theorem resetBlock_rBus (s : State) : s.resetBlock.rBus = none := rfl
@[simp] theorem resetBlock_refusalMark (s : State) : s.resetBlock.refusalMark = s.refusalMark := rfl
@[simp] theorem resetBlock_observation (s : State) : s.resetBlock.observation = s.observation := rfl
@[simp] theorem resetBlock_inputs (s : State) : s.resetBlock.inputs = s.inputs := rfl

@[simp] theorem loadRequest_rom (s : State) (q : Request) : (s.loadRequest q).rom = s.rom := rfl
@[simp] theorem loadRequest_pending (s : State) (q : Request) : (s.loadRequest q).pending = some q := rfl
@[simp] theorem loadRequest_rBus (s : State) (q : Request) : (s.loadRequest q).rBus = s.rBus := rfl
@[simp] theorem loadRequest_refusalMark (s : State) (q : Request) : (s.loadRequest q).refusalMark = s.refusalMark := rfl
@[simp] theorem loadRequest_observation (s : State) (q : Request) : (s.loadRequest q).observation = s.observation := rfl
@[simp] theorem loadRequest_inputs (s : State) (q : Request) : (s.loadRequest q).inputs = .completion :: s.inputs := rfl

/-- With a request pending, the observation grows by it and its outcome. -/
theorem observed_pending {s : State} {q : Request} (h : s.pending = some q) (o : ReqOutcome) :
    s.observed o = s.observation ++ [(q, o)] := by simp [observed, h]

/-- With none pending, the observation stays. -/
theorem observed_idle {s : State} (h : s.pending = none) (o : ReqOutcome) : s.observed o = s.observation := by
  simp [observed, h]

/-- The constant ROM is the same in every state (R27): its type has one value. -/
theorem rom_eq (s : State) : s.rom = {} := rfl

/-- Placing a word is loading its request. -/
theorem withFetchWord_eq (s : State) (nbits w : Nat) : s.withFetchWord nbits w = s.loadRequest (requestOfWord nbits w) := rfl

end Sys2Proof.Machine.State
end

