-- ==== Sys2Proof/Laws/Step.lean ====
section
/-! SUPPORT. What `exec`, `complete` and `step` can do, each said once. -/

namespace Sys2Proof.Machine

/-- What a completion does to the state for a given outcome of the pending request. -/
def State.answer (o : ReqOutcome) (s : State) : State :=
  match o with
  | .responded r => s.respond r
  | .refused why => s.refuse why

/-- Every arm of the dispatch responds with R80's result for its row of R63. -/
theorem exec_eq_respond (i : Instr) (s : State) :
    exec i s = .next (s.respond (approx s.rom i.dir i.prec i.nr i.y)) := by
  cases i <;> rfl

/-- The slot is empty or holds one request (R29). -/
theorem State.idle_or_pending (s : State) : s.pending = none ∨ ∃ q, s.pending = some q := by
  cases s.pending with
  | none => exact .inl rfl
  | some q => exact .inr ⟨q, rfl⟩

/-- With no request pending a completion does nothing. -/
theorem complete_idle {s : State} (h : s.pending = none) : complete s = .next s.quiet := by simp [complete, h]

/-- With a request pending a completion gives it its one outcome. -/
theorem complete_pending {s : State} {q : Request} (h : s.pending = some q) :
    complete s = .next (s.answer (outcomeOf q)) := by
  simp only [complete, h]
  cases hd : decode q with
  | error why =>
    obtain ⟨ho, rfl⟩ := decode_error_iff.mp hd
    simp [outcomeOf, ho, State.answer]
  | ok i =>
    obtain ⟨ho, hy⟩ := decode_ok_fields hd
    simp only [exec_eq_respond, outcomeOf, ho, State.answer, hy]

/-- Everything one step can do: the request accepted, no completion possible, the pending request answered, reset, or
nothing. `ins` is what is left of the host's interactions. -/
theorem step_cases {s t : State} (h : step s = .next t) :
    (∃ q rest, s.inputs = .request q :: rest ∧ s.pending = none ∧ t = State.accept q { s with inputs := rest }) ∨
    (∃ ins, s.pending = none ∧ t = State.quiet { s with inputs := ins }) ∨
    (∃ q ins, s.pending = some q ∧ t = State.answer (outcomeOf q) { s with inputs := ins }) ∨
    (∃ rest, s.inputs = .reset :: rest ∧ t = State.resetBlock { s with inputs := rest }) ∨
    (∃ rest, s.inputs = .delay :: rest ∧ t = State.quiet { s with inputs := rest }) := by
  have completion : ∀ ins, complete { s with inputs := ins } = .next t →
      (∃ ins, s.pending = none ∧ t = State.quiet { s with inputs := ins }) ∨
      (∃ q ins, s.pending = some q ∧ t = State.answer (outcomeOf q) { s with inputs := ins }) := by
    intro ins hc
    obtain hp | ⟨q, hp⟩ := s.idle_or_pending
    · rw [complete_idle (s := { s with inputs := ins }) hp, Host.Outcome.next.injEq] at hc
      exact .inl ⟨ins, hp, hc.symm⟩
    · rw [complete_pending (s := { s with inputs := ins }) hp, Host.Outcome.next.injEq] at hc
      exact .inr ⟨q, ins, hp, hc.symm⟩
  unfold step turn at h
  cases hi : s.inputs with
  | nil =>
    simp only [hi] at h
    rcases completion s.inputs h with h' | h'
    · exact .inr (.inl h')
    · exact .inr (.inr (.inl h'))
  | cons x rest =>
    cases x with
    | request q =>
      simp only [hi] at h
      obtain hp | ⟨p, hp⟩ := s.idle_or_pending
      · simp only [hp, Host.Outcome.next.injEq] at h
        exact .inl ⟨q, rest, rfl, hp, by simpa [hp] using h.symm⟩
      · simp only [hp] at h
        rcases completion s.inputs h with h' | h'
        · exact .inr (.inl h')
        · exact .inr (.inr (.inl h'))
    | completion =>
      simp only [hi] at h
      rcases completion rest h with h' | h'
      · exact .inr (.inl h')
      · exact .inr (.inr (.inl h'))
    | reset =>
      simp only [hi, Host.Outcome.next.injEq] at h
      exact .inr (.inr (.inr (.inl ⟨rest, rfl, h.symm⟩)))
    | delay =>
      simp only [hi, Host.Outcome.next.injEq] at h
      exact .inr (.inr (.inr (.inr ⟨rest, rfl, h.symm⟩)))

end Sys2Proof.Machine
end

