-- ==== Sys2Proof/Tests/Slice0.lean ====
section
/-! SUPPORT. The model's own tests, on one step each, with expected values from spec/95_test_vectors.md (named in the
comments), and for every statement with hypotheses a witness that meets them. -/

-- One theorem at a time: many at once need more thread stacks than a build under a memory limit may have.
set_option Elab.async false

namespace Sys2Proof.Tests

open Sys2Proof.Machine

/-- The state a step answers, if it answers one. -/
def nextState (o : Host.Outcome State Fault Refusal) : Option State :=
  match o with
  | .next t => some t
  | _ => none

/-- After reset, holding this request. -/
def holding (op : Bits8) (y : Bits64) : State := { State.reset with pending := some ⟨op, y⟩ }

/-- The response of one step. -/
def response (s : State) : Option Bits64 := (nextState (step s)).bind State.rBus

/-! ## WellFormed refuses what each check is for -/

theorem test_wellFormed_refuses_nonzero_reserved_bits :
    rsvZero 0x10#8 = false ∧ Request.wellFormed ⟨0x10#8, 0#64⟩ = false := by decide

theorem test_wellFormed_refuses_reserved_count :
    nrLegal 0x0C#8 = false ∧ Request.wellFormed ⟨0x0C#8, 0#64⟩ = false := by decide

theorem test_wellFormed_takes_a_defined_word : Request.wellFormed ⟨0x0B#8, 0xFFFFFFFFFFFFFFFF#64⟩ = true := by decide

/-! ## Decoding: a word of each family, written bit by bit (V-DEC-1 to V-DEC-8), and the reserved words -/

theorem test_decode_seed_words :
    decodeTableWord 8 0b00000000 = some (.fsqrtaS 0) ∧ decodeTableWord 8 0b00000001 = some (.frsqrtaS 0) ∧
    decodeTableWord 8 0b00000010 = some (.fsqrtaD 0) ∧ decodeTableWord 8 0b00000011 = some (.frsqrtaD 0) := by decide

theorem test_decode_refine_once_words :
    decodeTableWord 8 0b00000100 = some (.fsqrtaSNr1 0) ∧ decodeTableWord 8 0b00000101 = some (.frsqrtaSNr1 0) ∧
    decodeTableWord 8 0b00000110 = some (.fsqrtaDNr1 0) ∧ decodeTableWord 8 0b00000111 = some (.frsqrtaDNr1 0) := by decide

theorem test_decode_refine_twice_words :
    decodeTableWord 8 0b00001000 = some (.fsqrtaSNr2 0) ∧ decodeTableWord 8 0b00001001 = some (.frsqrtaSNr2 0) ∧
    decodeTableWord 8 0b00001010 = some (.fsqrtaDNr2 0) ∧ decodeTableWord 8 0b00001011 = some (.frsqrtaDNr2 0) := by decide

theorem test_decode_rejects_reserved_words :
    decodeTableWord 8 0x0C = none ∧ decodeTableWord 8 0x0F = none ∧ decodeTableWord 8 0x10 = none ∧
    decodeTableWord 8 0x13 = none ∧ decodeTableWord 8 0x80 = none ∧ decodeTableWord 8 0xFF = none := by decide

theorem test_decode_reads_operand_above_the_word :
    decodeTableWord 72 0x407000000000000003 = some (.frsqrtaD 0x4070000000000000#64) := by decide

/-! ## One result per instruction (V-RS, V-S, V-RD, V-SD, L1) -/

theorem test_frsqrtaS_last_wrapping_input : response (holding 0x01#8 0xBE6F7CEF#64) = some 0x80000000#64 := by decide  -- V-RS-20
theorem test_fsqrtaS_ignores_upper_half : response (holding 0x00#8 0xDEADBEEF40800000#64) = some 0x3FFD3F7D#64 := by decide  -- V-W-1
theorem test_frsqrtaD_negative_nan : response (holding 0x03#8 0xFFF8000000000000#64) = some 0x5FEAF7CED9168800#64 := by decide  -- L1-7
theorem test_fsqrtaD_infinity : response (holding 0x02#8 0x7FF0000000000000#64) = some 0x5FEFA7EF9DB22D00#64 := by decide  -- L1-6

theorem test_frsqrtaSNr1_max_subnormal : response (holding 0x05#8 0x007FFFFF#64) = some 0x5EFF9ADC#64 := by decide +kernel  -- V-RS-4
theorem test_frsqrtaSNr1_infinity : response (holding 0x05#8 0x7F800000#64) = some 0xFF800000#64 := by decide +kernel  -- V-RS-13
theorem test_fsqrtaSNr1_divides_by_zero : response (holding 0x04#8 0xC0858106#64) = some 0xFF800000#64 := by decide +kernel  -- V-S-20
theorem test_fsqrtaSNr1_two : response (holding 0x04#8 0x40000000#64) = some 0x3FB532BF#64 := by decide +kernel  -- V-S-7
theorem test_frsqrtaDNr1_max_normal : response (holding 0x07#8 0x7FEFFFFFFFFFFFFF#64) = some 0x1FEFF35B6AE971CC#64 := by decide +kernel  -- V-RD-12
theorem test_fsqrtaDNr1_two : response (holding 0x06#8 0x4000000000000000#64) = some 0x3FF6A657E7C8086A#64 := by decide +kernel  -- V-SD-7

theorem test_frsqrtaSNr2_negative_zero : response (holding 0x09#8 0x80000000#64) = some 0x9FCEB646#64 := by decide +kernel  -- V-RS-2
theorem test_fsqrtaSNr2_twelve : response (holding 0x08#8 0x41460000#64) = some 0x406123D4#64 := by decide +kernel  -- V-S-11
theorem test_frsqrtaDNr2_twelve : response (holding 0x0B#8 0x4028C00000000000#64) = some 0x3FD2316FDEDAF30C#64 := by decide +kernel  -- V-RD-10
theorem test_fsqrtaDNr2_eighty_one : response (holding 0x0A#8 0x4054400000000000#64) = some 0x4022000000D8FC0F#64 := by decide +kernel  -- P-2

/-- V-S-14: the second step's result is a NaN, of which nothing else is known (R115). -/
theorem test_fsqrtaSNr2_infinity_is_nan : sqrtStep binary32 0x7F800000#32 0x7F800000#32 = .nan := by decide +kernel

/-- R11: a signalling NaN keeps its sign and payload through `F32` and `enc32`; R15: the quiet bit. -/
theorem test_nan_datum_round_trip :
    binary32.datum 0xFF800001#32 = .nan true 1 ∧ binary32.enc (.nan true 1) = 0xFF800001#32 ∧
    isSignallingNaN binary32 0xFF800001#32 = true ∧ isQuietNaN binary32 0x7FC00000#32 = true ∧
    isQuietNaN binary64 0xFFF8000000000000#64 = true := by decide +kernel

/-! ## The request steps (R68) and reset (R160) -/

theorem test_accept_takes_the_request :  -- P-5, event 1
    (nextState (step { State.reset with inputs := [.request ⟨0x06#8, 0x4000000000000000#64⟩] })).map State.pending =
      some (some ⟨0x06#8, 0x4000000000000000#64⟩) := by decide

theorem test_reserved_word_is_refused :  -- P-3, line 2
    nextState (step (holding 0x0C#8 0x40800000#64)) = some
      { State.reset with
        refusalMark := true
        observation := [(⟨0x0C#8, 0x40800000#64⟩, .refused (.reservedOp 0x0C#8))] } := by decide

theorem test_mark_is_kept_after_a_response :  -- P-3, line 4
    (nextState (step { holding 0x00#8 0x40800000#64 with refusalMark := true })).map State.refusalMark = some true := by
  decide

theorem test_reset_discards_the_pending_request :  -- P-5, event 2
    nextState (step { holding 0x06#8 0x4000000000000000#64 with inputs := [.reset] }) = some State.reset := by decide

theorem test_request_bus_is_the_presented_request :
    State.requestBus { State.reset with inputs := [.request ⟨0x03#8, 5#64⟩] } = some ⟨0x03#8, 5#64⟩ ∧
    State.requestBus State.reset = none := by decide

/-! ## The assembler (R69, R70) -/

theorem test_assemble_float_literal :  -- R69's example
    (assemble "FRSQRTA.D 256.0".toList).toOption = some ⟨0x03#8, 0x4070000000000000#64⟩ := by decide +kernel

theorem test_assemble_negative_zero :  -- P-4, line 1
    (assemble "FRSQRTA.S -0.0".toList).toOption = some ⟨0x01#8, 0x80000000#64⟩ := by decide +kernel

theorem test_assemble_hex_and_infinity :  -- P-1, lines 7 and 6
    (assemble "FRSQRTA.D 0xFFF8000000000000".toList).toOption = some ⟨0x03#8, 0xFFF8000000000000#64⟩ ∧
    (assemble "FSQRTA.D inf".toList).toOption = some ⟨0x02#8, 0x7FF0000000000000#64⟩ := by decide +kernel

theorem test_assemble_refuses_wide_single_pattern_and_nan :
    (assemble "FSQRTA.S 0xDEADBEEF40800000".toList).toOption = none ∧
    (assemble "FSQRTA.S nan".toList).toOption = none := by decide +kernel

/-! ## Witnesses: for each statement with hypotheses, operands that meet them -/

theorem witness_StepRunsTheDecodedRequest :
    (holding 0x05#8 1#64).pending = some ⟨0x05#8, 1#64⟩ ∧ decode ⟨0x05#8, 1#64⟩ = .ok (.frsqrtaSNr1 1#64) ∧
    (holding 0x05#8 1#64).inputs = [] ∧
    { holding 0x05#8 1#64 with inputs := [.request ⟨0#8, 0#64⟩] }.inputs = .request ⟨0#8, 0#64⟩ :: [] ∧
    { holding 0x05#8 1#64 with inputs := [.completion, .delay] }.inputs = .completion :: [.delay] :=
  ⟨rfl, rfl, rfl, rfl, rfl⟩

theorem witness_PlacedWordRunsNext : decodeTableWord 8 0x0B = some (.frsqrtaDNr2 0#64) := by decide

theorem witness_DecodeAcceptsExactlyTwelveWords :
    (0x10#8).extractLsb' 4 4 ≠ 0#4 ∧ 2 < ((0x0C#8).extractLsb' 2 2).toNat ∧
    (0x0B#8).extractLsb' 4 4 = 0#4 ∧ ((0x0B#8).extractLsb' 2 2).toNat ≤ 2 := by decide

/-- Each of the three forms in which a completion is due. -/
theorem witness_CompletionDue :
    (holding 0x07#8 9#64).CompletionDue [] ∧
    State.CompletionDue { holding 0x07#8 9#64 with inputs := [.request ⟨1#8, 2#64⟩] } [.request ⟨1#8, 2#64⟩] ∧
    State.CompletionDue { holding 0x07#8 9#64 with inputs := [.completion, .reset] } [.reset] :=
  ⟨.inl ⟨rfl, rfl⟩, .inr (.inl ⟨_, _, rfl, rfl⟩), .inr (.inr rfl)⟩

theorem witness_RequestGetsExactlyOneOutcome :
    (holding 0x07#8 9#64).pending = some ⟨0x07#8, 9#64⟩ ∧ (holding 0x07#8 9#64).CompletionDue [] ∧
    decodeOp 0x07#8 = some ⟨.inv, .p64, 1⟩ ∧ decodeOp 0x0F#8 = none :=
  ⟨rfl, .inl ⟨rfl, rfl⟩, by decide, by decide⟩

theorem witness_ReservedRequestIsRefused :
    (holding 0x0C#8 9#64).pending = some ⟨0x0C#8, 9#64⟩ ∧ (holding 0x0C#8 9#64).CompletionDue [] ∧
    (0x0C ≤ (0x0C#8).toNat ∧ (0x0C#8).toNat ≤ 0x0F) ∧ 0x10 ≤ (0x10#8).toNat :=
  ⟨rfl, .inl ⟨rfl, rfl⟩, by decide, by decide⟩

theorem witness_AcceptOnlyWhenIdle :
    { State.reset with inputs := [.request ⟨1#8, 2#64⟩] }.inputs = .request ⟨1#8, 2#64⟩ :: [] ∧ State.reset.pending = none ∧
    { holding 1#8 2#64 with inputs := [.request ⟨1#8, 2#64⟩] }.inputs = .request ⟨1#8, 2#64⟩ :: [] ∧
    (holding 1#8 2#64).pending = some ⟨1#8, 2#64⟩ := by decide

theorem witness_ResetDiscardsPending : { holding 1#8 2#64 with inputs := [.reset] }.inputs = .reset :: [] := by decide

/-- A sound state about to complete a request after having refused one. -/
theorem witness_StepKeepsSound :
    ∃ s t : State, s.Sound ∧ s.pending ≠ none ∧ s.observation ≠ [] ∧ step s = .next t :=
  ⟨{ holding 0x02#8 3#64 with
      refusalMark := true, observation := [(⟨0x0C#8, 0#64⟩, .refused (.reservedOp 0x0C#8))] }, _,
    ⟨fun p hp => by obtain rfl := List.mem_singleton.mp hp; rfl, rfl, nofun⟩, nofun, nofun, rfl⟩

theorem witness_RefusalMarkIsKept :
    ∃ s t : State, step s = .next t ∧ s.refusalMark = false ∧ t.refusalMark = true :=
  ⟨holding 0xFF#8 0#64, _, rfl, rfl, rfl⟩

theorem witness_RefusalMarkIsKept_when_set :
    ∃ s t : State, step s = .next t ∧ s.refusalMark = true :=
  ⟨{ holding 0x00#8 0#64 with refusalMark := true }, _, rfl, rfl⟩

theorem witness_ResponsesAnswerDefinedRequests :
    ∃ (s t : State) (r : Bits64), step s = .next t ∧ t.rBus = some r :=
  ⟨holding 0x09#8 0#64, _, _, rfl, rfl⟩

/-- Two different states that hold one request, its completion due in two different forms. -/
theorem witness_OutcomeDependsOnRequestOnly :
    ∃ (s t : State) (q : Request), s ≠ t ∧ s.pending = some q ∧ t.pending = some q ∧
      s.CompletionDue [] ∧ t.CompletionDue [.reset] :=
  ⟨holding 0x09#8 0#64,
    { holding 0x09#8 0#64 with inputs := [.completion, .reset], refusalMark := true }, _, by decide, rfl, rfl,
    .inl ⟨rfl, rfl⟩, .inr (.inr rfl)⟩

theorem witness_UpperOperandHalfIsIgnored :
    (0x08#8).getLsbD 1 = false ∧
    (0xDEADBEEF40800000#64).extractLsb' 0 32 = (0x0000000040800000#64).extractLsb' 0 32 := by decide

theorem witness_SingleResultUpperHalfIsZero :
    ∃ (s t : State) (r : Bits64), exec (.frsqrtaSNr2 0xFFFFFFFFFFFFFFFF#64) s = .next t ∧ t.rBus = some r :=
  ⟨State.reset, _, _, rfl, rfl⟩

theorem witness_HalvingIsArithmetic : (0x80000000#32).msb = true ∧ (0x8000000000000000#64).msb = true := by decide

theorem witness_SeedRangesOfNonnegativePatterns :
    (0x00000000#32).msb = false ∧ (0x7FFFFFFF#32).msb = false ∧
    (0x0000000000000000#64).msb = false ∧ (0x7FFFFFFFFFFFFFFF#64).msb = false := by decide

theorem witness_SeedNaNNeedsSignBit :  -- C7, V-RS-22
    isNaN binary32 (seed32 {} .inv 0xBEEF7CEE#32) = true ∧ isInf binary32 (seed32 {} .inv 0xBF6F7CEE#32) = true ∧
    isNaN binary64 (seed64 {} .inv 0xBFCDEF9DB22D1002#64) = true := by decide +kernel

theorem witness_SeedsAreMonotone :
    (0#32).msb = false ∧ (0x7FFFFFFF#32).msb = false ∧ (0#32).toNat < (0x7FFFFFFF#32).toNat ∧
    (0#64).msb = false ∧ (0x7FFFFFFFFFFFFFFF#64).msb = false ∧ (0#64).toNat < (0x7FFFFFFFFFFFFFFF#64).toNat ∧
    (6#32).extractLsb' 1 31 = (7#32).extractLsb' 1 31 ∧ (6#64).extractLsb' 1 63 = (7#64).extractLsb' 1 63 := by decide

theorem witness_InverseStepCornerCases :
    binary32.value 0x7F800000#32 = .inf false ∧ binary32.value 0x00000001#32 = .fin false 1 (-149) ∧
    binary32.value 0x80000000#32 = .fin true 0 (-149) ∧ binary32.value 0x80000002#32 = .fin true 2 (-149) ∧
    binary32.value 0xFF800000#32 = .inf true ∧ binary32.value 0x7FC00000#32 = .nan := by decide +kernel

theorem witness_InverseStepCornerCases_double :
    binary64.value 0x7FF0000000000000#64 = .inf false ∧ binary64.value 0x0000000000000001#64 = .fin false 1 (-1074) ∧
    binary64.value 0x8000000000000000#64 = .fin true 0 (-1074) ∧
    binary64.value 0x8000000000000002#64 = .fin true 2 (-1074) ∧
    binary64.value 0xFFF0000000000000#64 = .inf true ∧ binary64.value 0x7FF8000000000000#64 = .nan := by decide +kernel

theorem witness_SqrtStepCornerCases :
    binary32.value 0x00000000#32 = .fin false 0 (-149) ∧ binary32.value 0x80000002#32 = .fin true 2 (-149) ∧
    binary32.value 0x7F800000#32 = .inf false ∧ binary32.value 0xFF800000#32 = .inf true ∧
    binary32.value 0x3F800000#32 = .fin false 8388608 (-23) ∧ binary32.value 0xFFC00000#32 = .nan := by decide +kernel

theorem witness_SqrtStepCornerCases_double :
    binary64.value 0x0000000000000000#64 = .fin false 0 (-1074) ∧
    binary64.value 0x8000000000000002#64 = .fin true 2 (-1074) ∧
    binary64.value 0x7FF0000000000000#64 = .inf false ∧ binary64.value 0xFFF0000000000000#64 = .inf true ∧
    binary64.value 0x3FF0000000000000#64 = .fin false 4503599627370496 (-52) ∧
    binary64.value 0xFFF8000000000000#64 = .nan := by decide +kernel

theorem witness_RefinementNaNResults :
    invStep binary32 0x00000000#32 0x7F800000#32 = .nan ∧ sqrtStep binary32 0x00000000#32 0x00000000#32 = .nan ∧
    invStep binary64 0x0000000000000000#64 0x7FF0000000000000#64 = .nan ∧
    isNaN binary32 0x7F800001#32 = true ∧ isNaN binary64 0xFFFFFFFFFFFFFFFF#64 = true := by decide +kernel

theorem witness_DivisionRoundsOnce : (1 : Nat) ≠ 0 := by decide

theorem witness_SpecialValueRules : (1 : Nat) ≠ 0 := by decide

theorem witness_HalvingIsExact :
    2 ≤ binary32.expField 0x01000000#32 ∧ binary32.expField 0x01000000#32 < binary32.expOnes ∧
    2 ≤ binary32.expField 0xFF7FFFFF#32 ∧ binary32.expField 0xFF7FFFFF#32 < binary32.expOnes ∧
    2 ≤ binary64.expField 0x0020000000000000#64 ∧ binary64.expField 0x0020000000000000#64 < binary64.expOnes := by
  decide +kernel

theorem witness_EncodingReadsBack :
    (0 < 1 ∧ 1 < 2 ^ binary32.fracBits) ∧ (0 < 2 ^ 52 - 1 ∧ 2 ^ 52 - 1 < 2 ^ binary64.fracBits) ∧
    isNaN binary32 0x80000001#32 = false ∧ isNaN binary64 0x7FF0000000000000#64 = false ∧
    binary32.Represents 8388607 (-149) ∧ binary32.Represents 8388608 (-149) ∧ binary32.Represents 16777215 104 ∧
    binary64.Represents 9007199254740991 971 := by
  refine ⟨by decide +kernel, by decide +kernel, by decide +kernel, by decide +kernel, .inl ?_, .inr ?_, .inr ?_, .inr ?_⟩ <;> decide +kernel

theorem witness_DelayedRequestCompletes :
    { holding 1#8 2#64 with inputs := [.completion] }.inputs = List.replicate 0 .delay ++ .completion :: [] ∧
    { holding 1#8 2#64 with inputs := [.delay, .delay, .completion, .reset] }.inputs =
      List.replicate 2 .delay ++ .completion :: [.reset] ∧
    (holding 1#8 2#64).pending = some ⟨1#8, 2#64⟩ := by decide

theorem witness_RunObservesEachOutcomeInOrder :
    State.reset.pending = none ∧
    { State.reset with inputs := [.request ⟨3#8, 0#64⟩, .request ⟨0x0C#8, 0#64⟩] }.inputs =
      List.map .request [⟨3#8, 0#64⟩, ⟨0x0C#8, 0#64⟩] := by decide

/-- A run has ended with nothing left, and with anything left but a request (R165). -/
theorem witness_FinishedRunStaysFinished :
    State.reset.finished = true ∧
    State.finished { State.reset with inputs := [.delay, .completion, .reset] } = true ∧
    State.finished { State.reset with inputs := [.delay, .request ⟨0#8, 0#64⟩] } = false ∧
    (holding 0#8 0#64).finished = false := by decide

theorem witness_InstancesAreIndependent : (0 : Nat) ≠ 1 ∧ ([holding 1#8 2#64, State.reset] : Platform).length = 2 := by decide

theorem witness_AssembledLinesAreDefined :
    assemble "FSQRTA.S.NR2 0x3F80_0000".toList = .ok ⟨0x08#8, 0x3F800000#64⟩ ∧ (0x08#8).getLsbD 1 = false :=
  ⟨by rfl, by decide⟩

theorem witness_SingleSeedsWithinSixPercent :
    (0x00800000#32).msb = false ∧ isNormal binary32 0x00800000#32 = true ∧
    (0x7F7FFFFF#32).msb = false ∧ isNormal binary32 0x7F7FFFFF#32 = true := by decide +kernel

theorem witness_DoubleSeedsWithinSixPercent :
    (0x0010000000000000#64).msb = false ∧ isNormal binary64 0x0010000000000000#64 = true ∧
    (0x7FEFFFFFFFFFFFFF#64).msb = false ∧ isNormal binary64 0x7FEFFFFFFFFFFFFF#64 = true := by decide +kernel

end Sys2Proof.Tests
end

section
/-! PROOF. R11's `F_P` and `enc_P` are inverse to each other (00_scope.md R11, R15), for any format whose three fields fill its
word; binary32 and binary64 are two such formats. -/

namespace Sys2Proof.Machine.Format

/-- R15's layout: a sign bit, a nonempty exponent field and the fraction field fill the word. -/
structure WellLaidOut {w : Nat} (F : Format w) : Prop where
  width : w = F.expBits + F.fracBits + 1
  expBits_pos : 0 < F.expBits

theorem binary32_wellLaidOut : binary32.WellLaidOut := ⟨rfl, by decide⟩
theorem binary64_wellLaidOut : binary64.WellLaidOut := ⟨rfl, by decide⟩

variable {w : Nat} {F : Format w} {neg : Bool} {e f m : Nat}

/-! ### The fields of an encoding -/

theorem fracField_lt (v : BitVec w) : F.fracField v < 2 ^ F.fracBits := Nat.mod_lt _ (Nat.two_pow_pos _)

theorem expField_lt (v : BitVec w) : F.expField v < 2 ^ F.expBits := Nat.mod_lt _ (Nat.two_pow_pos _)

theorem expOnes_lt : F.expOnes < 2 ^ F.expBits := Nat.pred_lt (Nat.two_pow_pos _).ne'

theorem WellLaidOut.expOnes_pos (hF : F.WellLaidOut) : 0 < F.expOnes :=
  Nat.sub_pos_of_lt (Nat.one_lt_two_pow hF.expBits_pos.ne')

theorem WellLaidOut.two_pow_width (hF : F.WellLaidOut) : 2 ^ w = 2 * 2 ^ F.expBits * 2 ^ F.fracBits := by
  calc
    2 ^ w = 2 ^ (F.expBits + F.fracBits + 1) := congrArg _ hF.width
    _ = _ := by ring

/-- An encoding as a number: its sign bit above its exponent field above its fraction field. -/
theorem WellLaidOut.toNat_eq_fields (hF : F.WellLaidOut) (v : BitVec w) :
    v.toNat = (v.msb.toNat * 2 ^ F.expBits + F.expField v) * 2 ^ F.fracBits + F.fracField v := by
  have hmsb : v.msb.toNat = v.toNat / 2 ^ F.fracBits / 2 ^ F.expBits := by
    have htop : w - 1 = F.fracBits + F.expBits := by have hw := hF.width; omega
    have hlt : v.toNat / (2 ^ F.fracBits * 2 ^ F.expBits) < 2 :=
      Nat.div_lt_of_lt_mul (by have hv := v.isLt; rw [hF.two_pow_width] at hv; linarith)
    rw [Nat.div_div_eq_div_mul, BitVec.msb_eq_getLsbD_last, ← BitVec.testBit_toNat, Nat.toNat_testBit, htop, Nat.pow_add,
      Nat.mod_eq_of_lt hlt]
  rw [hmsb, expField, Nat.div_add_mod', fracField, Nat.div_add_mod']

/-- Packing an encoding's own fields gives it back. -/
theorem WellLaidOut.pack_fields (hF : F.WellLaidOut) (v : BitVec w) :
    F.pack v.msb (F.expField v) (F.fracField v) = v := by
  apply BitVec.eq_of_toNat_eq
  rw [pack, Nat.pow_add, ← Nat.mul_assoc, ← Nat.add_mul, ← hF.toNat_eq_fields, BitVec.ofNat_toNat, BitVec.setWidth_eq]

/-- No bit is lost in packing fields that fit. -/
theorem WellLaidOut.toNat_pack (hF : F.WellLaidOut) (he : e < 2 ^ F.expBits) (hf : f < 2 ^ F.fracBits) :
    (F.pack neg e f).toNat = (neg.toNat * 2 ^ F.expBits + e) * 2 ^ F.fracBits + f := by
  have hhigh : neg.toNat * 2 ^ F.expBits + e < 2 * 2 ^ F.expBits := by
    have := Nat.mul_le_mul_right (2 ^ F.expBits) neg.toNat_le
    omega
  have hfits : (neg.toNat * 2 ^ F.expBits + e) * 2 ^ F.fracBits + f < 2 ^ w := by
    calc
      _ < (neg.toNat * 2 ^ F.expBits + e + 1) * 2 ^ F.fracBits := by rw [Nat.succ_mul]; omega
      _ ≤ 2 * 2 ^ F.expBits * 2 ^ F.fracBits := Nat.mul_le_mul_right _ hhigh
      _ = 2 ^ w := hF.two_pow_width.symm
  rw [pack, BitVec.toNat_ofNat, Nat.pow_add, ← Nat.mul_assoc, ← Nat.add_mul, Nat.mod_eq_of_lt hfits]

theorem WellLaidOut.fracField_pack (hF : F.WellLaidOut) (he : e < 2 ^ F.expBits) (hf : f < 2 ^ F.fracBits) :
    F.fracField (F.pack neg e f) = f := by
  rw [fracField, hF.toNat_pack he hf, Nat.mul_add_mod', Nat.mod_eq_of_lt hf]

theorem WellLaidOut.expField_pack (hF : F.WellLaidOut) (he : e < 2 ^ F.expBits) (hf : f < 2 ^ F.fracBits) :
    F.expField (F.pack neg e f) = e := by
  rw [expField, hF.toNat_pack he hf, Nat.mul_comm, Nat.mul_add_div (Nat.two_pow_pos _), Nat.div_eq_of_lt hf, Nat.add_zero,
    Nat.mul_add_mod', Nat.mod_eq_of_lt he]

/-- The sign is what is left of the number once the other two fields are known. -/
theorem WellLaidOut.msb_pack (hF : F.WellLaidOut) (he : e < 2 ^ F.expBits) (hf : f < 2 ^ F.fracBits) :
    (F.pack neg e f).msb = neg := by
  have hfields := hF.toNat_eq_fields (F.pack neg e f)
  rw [hF.toNat_pack he hf, hF.expField_pack he hf, hF.fracField_pack he hf] at hfields
  have hsign : (F.pack neg e f).msb.toNat = neg.toNat := by simpa using hfields.symm
  rw [Bool.eq_iff_iff, ← Bool.toNat_eq_one, hsign, Bool.toNat_eq_one]

/-! ### Reading a datum, case by case (R15) -/

theorem datum_of_nan {v : BitVec w} (he : F.expField v = F.expOnes) (hf : F.fracField v ≠ 0) :
    F.datum v = .nan v.msb (F.fracField v) := by simp [datum, he, hf]

theorem datum_of_inf {v : BitVec w} (he : F.expField v = F.expOnes) (hf : F.fracField v = 0) :
    F.datum v = .inf v.msb := by simp [datum, he, hf]

theorem WellLaidOut.datum_of_expField_eq_zero (hF : F.WellLaidOut) {v : BitVec w} (he : F.expField v = 0) :
    F.datum v = .fin v.msb (F.fracField v) F.qMin := by
  simp [datum, he, hF.expOnes_pos.ne]

theorem datum_of_normal {v : BitVec w} (he : F.expField v ≠ F.expOnes) (he0 : F.expField v ≠ 0) :
    F.datum v = .fin v.msb (2 ^ F.fracBits + F.fracField v) (F.qMin + ((F.expField v : Int) - 1)) := by
  simp [datum, he, he0]

/-! ### Encoding a datum -/

theorem enc_of_lt {q : Int} (hm : m < 2 ^ F.fracBits) : F.enc (.fin neg m q) = F.pack neg 0 m := if_pos hm

/-- The significand of a normal datum loses its leading 1, and the exponent field counts quanta from `qMin`. -/
theorem enc_normal (he : e ≠ 0) :
    F.enc (.fin neg (2 ^ F.fracBits + f) (F.qMin + ((e : Int) - 1))) = F.pack neg e f := by
  have hexp : (F.qMin + ((e : Int) - 1) - F.qMin).toNat + 1 = e := by omega
  rw [enc, if_neg (by omega), hexp, Nat.add_sub_cancel_left]

/-- R11: `enc(F(v)) = v`. -/
theorem WellLaidOut.enc_datum (hF : F.WellLaidOut) (v : BitVec w) : F.enc (F.datum v) = v := by
  have hpack := hF.pack_fields v
  by_cases hones : F.expField v = F.expOnes
  · rw [hones] at hpack
    by_cases hfrac : F.fracField v = 0
    · rw [hfrac] at hpack
      rw [datum_of_inf hones hfrac, enc, hpack]
    · rw [datum_of_nan hones hfrac, enc, hpack]
  · by_cases hzero : F.expField v = 0
    · rw [hF.datum_of_expField_eq_zero hzero, enc_of_lt (fracField_lt v), ← hzero, hpack]
    · rw [datum_of_normal hones hzero, enc_normal hzero, hpack]

theorem WellLaidOut.datum_enc_nan (hF : F.WellLaidOut) (hpos : 0 < f) (hf : f < 2 ^ F.fracBits) :
    F.datum (F.enc (.nan neg f)) = .nan neg f := by
  have hfrac := hF.fracField_pack (neg := neg) expOnes_lt hf
  rw [enc, datum_of_nan (hF.expField_pack expOnes_lt hf) (by omega), hF.msb_pack expOnes_lt hf, hfrac]

theorem WellLaidOut.isQuietNaN_enc_nan (hF : F.WellLaidOut) (hpos : 0 < f) (hf : f < 2 ^ F.fracBits) :
    isQuietNaN F (F.enc (.nan neg f)) = f.testBit (F.fracBits - 1) := by
  simp [enc, isQuietNaN, isNaN, hF.expField_pack expOnes_lt hf, hF.fracField_pack expOnes_lt hf, hpos.ne']

theorem WellLaidOut.datum_enc_inf (hF : F.WellLaidOut) : F.datum (F.enc (.inf neg)) = .inf neg := by
  have hzero : 0 < 2 ^ F.fracBits := Nat.two_pow_pos _
  rw [enc, datum_of_inf (hF.expField_pack expOnes_lt hzero) (hF.fracField_pack expOnes_lt hzero), hF.msb_pack expOnes_lt hzero]

/-- `Represents` by the fields: a fraction at the least quantum, or a leading 1 and an exponent field strictly between zero
and all ones. -/
theorem Represents.cases_fields {q : Int} (h : F.Represents m q) :
    (m < 2 ^ F.fracBits ∧ q = F.qMin) ∨
    ∃ e f, e ≠ 0 ∧ e < F.expOnes ∧ f < 2 ^ F.fracBits ∧ m = 2 ^ F.fracBits + f ∧ q = F.qMin + ((e : Int) - 1) := by
  obtain ⟨hq, hm⟩ | ⟨hmin, hmax, hlow, hhigh⟩ := h
  · exact .inl ⟨hm, hq⟩
  · rw [qMax] at hmax
    rw [Nat.pow_succ] at hhigh
    exact .inr ⟨(q - F.qMin).toNat + 1, m - 2 ^ F.fracBits, by omega, by omega, by omega, by omega, by omega⟩

/-- R11: `F(enc(x)) = x` for a finite datum. -/
theorem WellLaidOut.datum_enc_fin (hF : F.WellLaidOut) {q : Int} (h : F.Represents m q) :
    F.datum (F.enc (.fin neg m q)) = .fin neg m q := by
  obtain ⟨hm, rfl⟩ | ⟨e, f, hzero, hones, hf, rfl, rfl⟩ := h.cases_fields
  · have he : 0 < 2 ^ F.expBits := Nat.two_pow_pos _
    rw [enc_of_lt hm, hF.datum_of_expField_eq_zero (hF.expField_pack he hm), hF.msb_pack he hm, hF.fracField_pack he hm]
  · have he : e < 2 ^ F.expBits := hones.trans expOnes_lt
    have hfield := hF.expField_pack (neg := neg) he hf
    rw [enc_normal hzero, datum_of_normal (by omega) (by omega), hF.msb_pack he hf, hF.fracField_pack he hf, hfield]

/-! ### NaN encodings -/

/-- R15: the NaN encodings are those whose value is a NaN. -/
theorem isNaN_iff_value_eq_nan (v : BitVec w) : isNaN F v = true ↔ F.value v = .nan := by
  simp only [isNaN, value, datum, Bool.and_eq_true, beq_iff_eq, bne_iff_ne]
  split_ifs with hones hfrac hzero <;> simp_all

theorem WellLaidOut.encode_value (hF : F.WellLaidOut) {v : BitVec w} (h : isNaN F v = false) :
    F.encode (F.value v) = some v := by
  have hvalue : (F.datum v).value ≠ .nan := fun hnan => by simp [(isNaN_iff_value_eq_nan v).mpr hnan] at h
  rw [value, encode_value_of_ne_nan F hvalue, hF.enc_datum]

theorem WellLaidOut.encodesItsData (hF : F.WellLaidOut) : F.EncodesItsData :=
  ⟨hF.enc_datum, fun _ _ hpos hf => ⟨hF.datum_enc_nan hpos hf, hF.isQuietNaN_enc_nan hpos hf⟩, fun _ => hF.datum_enc_inf,
    fun _ _ _ h => hF.datum_enc_fin h, isNaN_iff_value_eq_nan, fun _ => hF.encode_value⟩

end Sys2Proof.Machine.Format

namespace Sys2Proof.Proofs
open Sys2Proof.Machine

/-- Settles O42: both formats lay three fields out in their word, and any such format reads back what it encodes. -/
theorem encodingReadsBack : Obligations.EncodingReadsBack :=
  ⟨Format.binary32_wellLaidOut.encodesItsData, Format.binary64_wellLaidOut.encodesItsData⟩

end Sys2Proof.Proofs
end

section
/-! PROOF. The state of the block (10_state.md): what accepting and completing a request do, and the soundness that
reset has and every step keeps. -/

namespace Sys2Proof.Machine

/-! ### The four constants (R7) -/

@[simp] theorem ConstantRom.magicInvSqrt32_toNat (rom : ConstantRom) : rom.magicInvSqrt32.toNat = 1597488759 := rfl
@[simp] theorem ConstantRom.magicSqrt32_toNat (rom : ConstantRom) : rom.magicSqrt32.toNat = 532496253 := rfl
@[simp] theorem ConstantRom.magicInvSqrt64_toNat (rom : ConstantRom) :
    rom.magicInvSqrt64.toNat = 6910483146024060928 := rfl
@[simp] theorem ConstantRom.magicSqrt64_toNat (rom : ConstantRom) :
    rom.magicSqrt64.toNat = 2303494382008020224 := rfl

variable {s t : State} {q : Request} {rest : List Interaction}

/-! ### What a completion leaves, whichever the outcome -/

@[simp] theorem State.answer_pending (o : ReqOutcome) (s : State) : (s.answer o).pending = none := by cases o <;> rfl

@[simp] theorem State.answer_inputs (o : ReqOutcome) (s : State) : (s.answer o).inputs = s.inputs := by cases o <;> rfl

@[simp] theorem State.answer_observation (o : ReqOutcome) (s : State) : (s.answer o).observation = s.observed o := by
  cases o <;> rfl

/-- With a request pending, the observation grows by it and its outcome (R165). -/
theorem State.answer_observation_of_pending (hp : s.pending = some q) (o : ReqOutcome) :
    (s.answer o).observation = s.observation ++ [(q, o)] := by
  rw [State.answer_observation, State.observed_pending hp]

@[simp] theorem State.answer_refusalMark (o : ReqOutcome) (s : State) :
    (s.answer o).refusalMark = (s.refusalMark || o.isRefusal) := by
  cases o with
  | responded r => exact (Bool.or_false _).symm
  | refused why => exact (Bool.or_true _).symm

/-- The response bus holds exactly the value of a response (R25, R66). -/
@[simp] theorem State.answer_rBus_eq_some (o : ReqOutcome) (s : State) (r : Bits64) :
    (s.answer o).rBus = some r ↔ o = .responded r := by
  cases o <;> simp [State.answer]

/-- The response bus after a completion is a function of the outcome alone. -/
theorem State.answer_rBus_congr (o : ReqOutcome) (s t : State) : (s.answer o).rBus = (t.answer o).rBus :=
  Option.ext fun r => by simp only [State.answer_rBus_eq_some]

/-! ### What the next step is -/

/-- A table word reads as `i` exactly when its request decodes to `i`. -/
theorem decodeTableWord_eq_some {nbits w : Nat} {i : Instr} :
    decodeTableWord nbits w = some i ↔ decode (requestOfWord nbits w) = .ok i := by
  unfold decodeTableWord
  cases decode (requestOfWord nbits w) <;> simp [Except.toOption]

/-- R68 `complete` for a defined word. -/
theorem complete_of_decode_ok {i : Instr} (hp : s.pending = some q) (hd : decode q = .ok i) : complete s = exec i s := by
  simp only [complete, hp, hd]

/-- R68 `accept`: an idle block takes the request presented. -/
theorem step_request_of_idle (hi : s.inputs = .request q :: rest) (hp : s.pending = none) :
    step s = .next (State.accept q { s with inputs := rest }) := by
  simp only [step, turn, hi, hp]

/-- When a completion is due, it is the next step. -/
theorem step_of_completionDue (hp : s.pending = some q) (hdue : s.CompletionDue rest) :
    step s = complete { s with inputs := rest } := by
  obtain ⟨hi, rfl⟩ | ⟨p, tail, hi, rfl⟩ | hi := hdue
  · rw [← hi]
    change step s = complete s
    simp only [step, turn, hi]
  · rw [← hi]
    change step s = complete s
    simp only [step, turn, hi, hp]
  · simp only [step, turn, hi]

/-- When a completion is due, the next step gives the pending request its one outcome. -/
theorem step_answer_of_completionDue (hp : s.pending = some q) (hdue : s.CompletionDue rest) :
    step s = .next (State.answer (outcomeOf q) { s with inputs := rest }) := by
  rw [step_of_completionDue hp hdue]
  exact complete_pending hp

/-! ### Soundness -/

/-- A state with no bus value is sound when it has the mark and the observation of a sound state. -/
theorem State.Sound.of_quiet_bus (hs : s.Sound) (hobs : t.observation = s.observation)
    (hmark : t.refusalMark = s.refusalMark) (hbus : t.rBus = none) : t.Sound where
  outcomes := by rw [hobs]; exact hs.outcomes
  mark := by rw [hobs, hmark]; exact hs.mark
  bus := fun r hr => by simp [hbus] at hr

/-- The interactions to come have no part in soundness. -/
theorem State.Sound.with_inputs (hs : s.Sound) (ins : List Interaction) : State.Sound { s with inputs := ins } :=
  ⟨hs.outcomes, hs.mark, hs.bus⟩

/-- Giving the pending request its outcome by the rules keeps soundness. -/
theorem State.Sound.answer (hs : s.Sound) (hp : s.pending = some q) : (s.answer (outcomeOf q)).Sound := by
  have hobs := State.answer_observation_of_pending hp (outcomeOf q)
  constructor
  case outcomes =>
    intro p hmem
    rw [hobs, List.mem_append, List.mem_singleton] at hmem
    obtain hold | rfl := hmem
    · exact hs.outcomes p hold
    · rfl
  case mark =>
    rw [hobs, State.answer_refusalMark, List.any_append, ← hs.mark, List.any_cons, List.any_nil, Bool.or_false]
  case bus =>
    intro r hr
    rw [State.answer_rBus_eq_some] at hr
    exact ⟨q, by rw [hobs, List.getLast?_concat, hr]⟩

/-- Accepting, resetting and passing time observe nothing and clear the bus; a completion observes the rules' outcome. -/
theorem State.Sound.step (hs : s.Sound) (h : step s = .next t) : t.Sound := by
  obtain ⟨q, rest, -, -, rfl⟩ | ⟨ins, -, rfl⟩ | ⟨q, ins, hp, rfl⟩ | ⟨rest, -, rfl⟩ | ⟨rest, -, rfl⟩ := step_cases h
  · exact hs.of_quiet_bus rfl rfl rfl
  · exact hs.of_quiet_bus rfl rfl rfl
  · exact (hs.with_inputs ins).answer hp
  · exact hs.of_quiet_bus rfl rfl rfl
  · exact hs.of_quiet_bus rfl rfl rfl

/-- The base case of soundness. -/
theorem State.reset_sound : State.reset.Sound where
  outcomes := fun _ hmem => nomatch hmem
  mark := rfl
  bus := fun _ hr => nomatch hr

end Sys2Proof.Machine

namespace Sys2Proof.Proofs
open Sys2Proof.Machine

/-- Settles O19, by cases on what a step can do: only a completion adds to the observation. -/
theorem stepKeepsSound : Obligations.StepKeepsSound := fun _ _ => State.Sound.step

/-- Settles O22: in both states the completion gives the request `outcomeOf` of it, which reads no state. -/
theorem outcomeDependsOnRequestOnly : Obligations.OutcomeDependsOnRequestOnly := by
  intro s t q u v hs ht hu hv
  refine ⟨_, _, outcomeOf q, step_answer_of_completionDue hs hu, step_answer_of_completionDue ht hv,
    State.answer_rBus_congr _ _ _, ?_, ?_⟩
  · exact State.answer_observation_of_pending (s := { s with inputs := u }) hs _
  · exact State.answer_observation_of_pending (s := { t with inputs := v }) ht _

/-- Settles O2: a placed word stands in the slot with its completion due, and a completion runs what it decodes. -/
theorem placedWordRunsNext : Obligations.PlacedWordRunsNext := by
  intro s nbits w i hw
  have hdecode : decode (requestOfWord nbits w) = .ok i := decodeTableWord_eq_some.mp hw
  have hdue : (s.withFetchWord nbits w).CompletionDue s.inputs := .inr (.inr rfl)
  rw [step_of_completionDue rfl hdue]
  exact complete_of_decode_ok rfl hdecode

/-- Settles O15: a presented request is accepted when the slot is empty, and stays while the one held completes. -/
theorem acceptOnlyWhenIdle : Obligations.AcceptOnlyWhenIdle := by
  intro s q rest hi
  constructor
  · exact step_request_of_idle hi
  · intro p hp
    have hdue : s.CompletionDue (.request q :: rest) := .inr (.inl ⟨q, rest, hi, rfl⟩)
    exact ⟨_, step_answer_of_completionDue hp hdue, State.answer_pending _ _, State.answer_inputs _ _⟩

/-- Settles O17: the fields of `State.reset`, and the four constants, which read nothing of the state. -/
theorem resetStateValues : Obligations.ResetStateValues :=
  ⟨rfl, rfl, rfl, rfl, rfl, fun s => ⟨s.rom.magicInvSqrt32_toNat, s.rom.magicSqrt32_toNat,
    s.rom.magicInvSqrt64_toNat, s.rom.magicSqrt64_toNat⟩⟩

/-- Settles O18: nothing has been observed, so there is nothing to mark and no response to hold. -/
theorem resetIsSound : Obligations.ResetIsSound := State.reset_sound

end Sys2Proof.Proofs
end

section
/-! PROOF. The transaction memory (20_memory.md): R43's upper half of a single-precision result, and R47's order of the
outcomes of one run. -/

namespace Sys2Proof.Machine

variable {s t : State} {q : Request} {qs : List Request} {rest : List Interaction}

/-! ### The upper half of a single-precision result (R43) -/

/-- A single-precision value is extended by zeros to the width of the response bus. -/
@[simp] theorem result32_upperHalf (g : Bits32) : (result32 g).extractLsb' 32 32 = 0#32 := by
  ext i hi
  simp [result32]

@[simp] theorem approx_p32_upperHalf (rom : ConstantRom) (dir : Dir) (nr : Nat) (Y : Bits64) :
    (approx rom dir .p32 nr Y).extractLsb' 32 32 = 0#32 :=
  result32_upperHalf _

/-- After an instruction the response bus holds R80's result for it. -/
theorem exec_rBus {i : Instr} (h : exec i s = .next t) : t.rBus = some (approx s.rom i.dir i.prec i.nr i.y) := by
  rw [exec_eq_respond, Host.Outcome.next.injEq] at h
  rw [← h, State.respond_rBus]

/-! ### A run -/

/-- A run of any machine goes on from the state its first step gives. -/
theorem run_succ_of_step {M : Host.Core} {a b : M.State} (k : Nat) (h : M.step a = .next b) : M.run (k + 1) a = M.run k b := by
  rw [Host.Core.run, h]

/-- R165: an idle block with nothing left on the host's list has ended its run. -/
theorem State.finished_of_idle (hp : s.pending = none) (hi : s.inputs = []) : s.finished = true := by
  simp [State.finished, hp, hi]

/-- Where the host has only requests left, a pending request is next to complete. -/
theorem State.completionDue_of_requests (hi : s.inputs = qs.map .request) : s.CompletionDue (qs.map .request) := by
  cases qs with
  | nil => exact .inl ⟨hi, rfl⟩
  | cons p ps => exact .inr (.inl ⟨p, ps.map .request, hi, rfl⟩)

/-- The state after the request at the head has been accepted and has got its outcome. -/
def State.served (s : State) (q : Request) (rest : List Interaction) : State :=
  State.answer (outcomeOf q) (State.accept q { s with inputs := rest })

@[simp] theorem State.served_pending : (s.served q rest).pending = none := State.answer_pending _ _

@[simp] theorem State.served_inputs : (s.served q rest).inputs = rest := State.answer_inputs _ _

@[simp] theorem State.served_observation : (s.served q rest).observation = s.observation ++ [(q, outcomeOf q)] :=
  State.answer_observation_of_pending (State.accept_pending _ _) _

@[simp] theorem State.served_refusalMark :
    (s.served q rest).refusalMark = (s.refusalMark || (outcomeOf q).isRefusal) :=
  State.answer_refusalMark _ _

/-- R68: an idle block whose host has only requests left accepts the first of them and then completes it. -/
theorem core_run_two_steps (k : Nat) (hp : s.pending = none) (hi : s.inputs = (q :: qs).map .request) :
    Sys2Proof.core.run (k + 2) s = Sys2Proof.core.run k (s.served q (qs.map .request)) := by
  have haccept := step_request_of_idle hi hp
  have hcomplete : step (State.accept q { s with inputs := qs.map .request }) = .next (s.served q (qs.map .request)) :=
    step_answer_of_completionDue rfl (State.completionDue_of_requests rfl)
  calc
    Sys2Proof.core.run (k + 2) s = Sys2Proof.core.run (k + 1) (State.accept q { s with inputs := qs.map .request }) :=
      run_succ_of_step (M := Sys2Proof.core) (k + 1) haccept
    _ = Sys2Proof.core.run k (s.served q (qs.map .request)) := run_succ_of_step (M := Sys2Proof.core) k hcomplete

end Sys2Proof.Machine

namespace Sys2Proof.Proofs
open Sys2Proof.Machine

/-- Settles O24: the response is R80's, which for single precision extends a 32-bit value by zeros. -/
theorem singleResultUpperHalfIsZero : Obligations.SingleResultUpperHalfIsZero := by
  intro i s t r hprec hexec hbus
  obtain rfl : approx s.rom i.dir i.prec i.nr i.y = r := Option.some.inj ((exec_rBus hexec).symm.trans hbus)
  rw [hprec]
  exact approx_p32_upperHalf _ _ _ _

/-- Settles O44, by induction on the requests left: each takes two steps, and its outcome joins the observation and the mark
before the next one is accepted. -/
theorem runObservesEachOutcomeInOrder : Obligations.RunObservesEachOutcomeInOrder := by
  intro qs s hp hi
  induction qs generalizing s with
  | nil => exact ⟨s, rfl, State.finished_of_idle hp hi, by simp, by simp⟩
  | cons q qs ih =>
    obtain ⟨t, hrun, hfin, hobs, hmark⟩ := ih (s.served q (qs.map .request)) State.served_pending State.served_inputs
    refine ⟨t, ?_, hfin, ?_, ?_⟩
    · rw [List.length_cons, Nat.mul_succ, core_run_two_steps _ hp hi, hrun]
    · simp [hobs]
    · simp [hmark, Bool.or_assoc]

end Sys2Proof.Proofs
end

section
/-! PROOF. The encoding (30_encoding.md): the operation word and its fields are inverse to each other (R60, R63, R64), the
reserved words (R65), what their completion does (R66), and the assembler (R69, R70). -/

namespace Sys2Proof

variable {op : Bits8} {f : OpFields} {q : Request} {i : Instr}

/-! ### The fields of an operation word (R60, R64) -/

/-- R64's `decode`, read both ways: when a word is defined, and the fields it then has. -/
theorem decodeOp_eq_some_iff :
    decodeOp op = some f ↔ op.extractLsb' 4 4 = 0#4 ∧ (op.extractLsb' 2 2).toNat ≤ Config.nrMax ∧
      f = ⟨if op.getLsbD 0 then .inv else .sqrt, if op.getLsbD 1 then .p64 else .p32, (op.extractLsb' 2 2).toNat⟩ := by
  unfold decodeOp
  split
  next hrsv => simp only [reduceCtorEq, hrsv, false_and]
  next hrsv =>
    dsimp only
    split
    next hnr => simp only [reduceCtorEq, Nat.not_le.mpr hnr, false_and, and_false]
    next hnr => simp only [Option.some.injEq, not_not.mp hrsv, Nat.not_lt.mp hnr, true_and, eq_comm]

theorem prec_of_decodeOp (h : decodeOp op = some f) : f.prec = if op.getLsbD 1 then .p64 else .p32 := by
  obtain ⟨-, -, rfl⟩ := decodeOp_eq_some_iff.mp h
  rfl

/-- R60's layout of a word with `RSV = 0000`. -/
def OpFields.word (f : OpFields) : Bits8 :=
  0#4 ++ BitVec.ofNat 2 f.nr ++ BitVec.ofBool (f.prec == .p64) ++ BitVec.ofBool (f.dir == .inv)

/-- A word is the concatenation of the fields R60 names. -/
theorem concat_opFields (op : Bits8) :
    op.extractLsb' 4 4 ++ op.extractLsb' 2 2 ++ BitVec.ofBool (op.getLsbD 1) ++ BitVec.ofBool (op.getLsbD 0) = op := by
  revert op; decide

/-- A defined word is laid out from its fields; so no two words have the same ones. -/
theorem word_of_decodeOp (h : decodeOp op = some f) : f.word = op := by
  obtain ⟨hrsv, -, rfl⟩ := decodeOp_eq_some_iff.mp h
  have hprec : ((if op.getLsbD 1 then Prec.p64 else .p32) == .p64) = op.getLsbD 1 := by cases op.getLsbD 1 <;> rfl
  have hdir : ((if op.getLsbD 0 then Dir.inv else .sqrt) == .inv) = op.getLsbD 0 := by cases op.getLsbD 0 <;> rfl
  rw [OpFields.word, hprec, hdir, BitVec.ofNat_toNat, BitVec.setWidth_eq, ← hrsv, concat_opFields]

/-! ### Decoding and encoding are inverse (R63) -/

@[simp] theorem encode_y (i : Instr) : (encode i).y = i.y := by cases i <;> rfl

/-- An instruction is the row of R63 with its own columns. -/
theorem instrOf_self (i : Instr) : instrOf i.dir i.prec i.nr i.y = some i := by cases i <;> rfl

theorem decode_encode (i : Instr) : decode (encode i) = .ok i := by
  simp only [decode, decodeOp_encode, encode_y, instrOf_self]

/-- The fields of a request's word and of the instruction's word agree, so the words do; the operand stands as it is. -/
theorem encode_of_decode (h : decode q = .ok i) : encode i = q := by
  obtain ⟨hop, hy⟩ := decode_ok_fields h
  have hword : (encode i).op = q.op := (word_of_decodeOp (decodeOp_encode i)).symm.trans (word_of_decodeOp hop)
  have hoperand : (encode i).y = q.y := (encode_y i).trans hy
  calc
    encode i = ⟨(encode i).op, (encode i).y⟩ := rfl
    _ = q := by rw [hword, hoperand]

/-! ### The reserved words (R65) -/

/-- The upper four bits are zero and the next two are at most 2 exactly below `0x0C`. -/
theorem fieldsLegal_iff_lt_twelve (op : Bits8) :
    op.extractLsb' 4 4 = 0#4 ∧ (op.extractLsb' 2 2).toNat ≤ Config.nrMax ↔ op.toNat < 12 := by
  have hop := op.isLt
  rw [← BitVec.toNat_inj, BitVec.extractLsb'_toNat, BitVec.extractLsb'_toNat, Nat.shiftRight_eq_div_pow,
    Nat.shiftRight_eq_div_pow]
  simp only [Config.nrMax, BitVec.toNat_ofNat]
  omega

theorem decodeOp_isSome_iff : (decodeOp op).isSome = true ↔ op.toNat < 12 := by
  rw [← fieldsLegal_iff_lt_twelve, Option.isSome_iff_exists]
  constructor
  · rintro ⟨f, hf⟩
    obtain ⟨hrsv, hnr, -⟩ := decodeOp_eq_some_iff.mp hf
    exact ⟨hrsv, hnr⟩
  · rintro ⟨hrsv, hnr⟩
    exact ⟨_, decodeOp_eq_some_iff.mpr ⟨hrsv, hnr, rfl⟩⟩

theorem decodeOp_eq_none_iff : decodeOp op = none ↔ 12 ≤ op.toNat := by
  rw [← Option.not_isSome_iff_eq_none, decodeOp_isSome_iff, Nat.not_lt]

/-- R63's twelve words are the numbers below twelve. -/
theorem mem_words_iff_lt_twelve (op : Bits8) :
    op ∈ [0x01#8, 0x00#8, 0x03#8, 0x02#8, 0x05#8, 0x04#8, 0x07#8, 0x06#8, 0x09#8, 0x08#8, 0x0B#8, 0x0A#8] ↔
      op.toNat < 12 := by
  revert op; decide

/-- A request is an instruction when its word is a defined one; the operand never matters (R62). -/
theorem exists_decode_ok_of_lt (h : q.op.toNat < 12) : ∃ i, decode q = .ok i := by
  cases hd : decode q with
  | ok i => exact ⟨i, rfl⟩
  | error why => exact absurd (decodeOp_eq_none_iff.mp (decode_error_iff.mp hd).1) (Nat.not_le.mpr h)

end Sys2Proof

namespace Sys2Proof.Machine

variable {s : State} {q : Request} {i : Instr} {rest : List Interaction} {op : Bits8} {y : Bits64}

/-! ### The completion of a request (R62, R66, R68) -/

/-- R68 `complete` for a defined word, when it is due. -/
theorem step_exec_of_completionDue (hp : s.pending = some q) (hd : decode q = .ok i) (hdue : s.CompletionDue rest) :
    step s = exec i { s with inputs := rest } := by
  rw [step_of_completionDue hp hdue]
  exact complete_of_decode_ok hp hd

theorem State.with_inputs_self {ins : List Interaction} (hi : s.inputs = ins) : { s with inputs := ins } = s := by
  rw [← hi]

/-- R66: the outcome of a request whose word R64's `decode` rejects. -/
theorem outcomeOf_of_decodeOp_none (h : decodeOp q.op = none) : outcomeOf q = .refused (.reservedOp q.op) := by
  rw [outcomeOf, h]

/-- R62: a single-precision result reads the operand only through `Y[31:0]`. -/
theorem approx_p32_congr (rom : ConstantRom) (dir : Dir) (nr : Nat) {Y Z : Bits64} (h : operand32 Y = operand32 Z) :
    approx rom dir .p32 nr Y = approx rom dir .p32 nr Z := by
  simp only [approx, approx32, h]

/-! ### The assembler (R69, R70) -/

/-- R69: the first word of a line that is taken is a mnemonic, and the rest an operand in that mnemonic's precision. -/
theorem assemble_ok_inv {line : List Char} (h : assemble line = .ok q) :
    mnemonicOp (splitWord line).1 = some q.op ∧ operandY q.op (splitWord line).2 = .ok q.y := by
  unfold assemble at h
  cases hop : mnemonicOp (splitWord line).1 with
  | none => simp only [hop, reduceCtorEq] at h
  | some op =>
    cases hy : operandY op (splitWord line).2 with
    | error why => simp only [hop, hy, reduceCtorEq] at h
    | ok y =>
      simp only [hop, hy, Except.ok.injEq] at h
      subst h
      exact ⟨rfl, hy⟩

/-- Every row of the mnemonic table has one of R63's words. -/
theorem mnemonicOp_lt_twelve {name : List Char} (h : mnemonicOp name = some op) : op.toNat < 12 := by
  have hrows : ∀ row ∈ mnemonicTable, row.2.toNat < 12 := by decide
  obtain ⟨row, hfind, rfl⟩ := Option.map_eq_some_iff.mp h
  exact hrows row (List.mem_of_find?_eq_some hfind)

/-- R69: a `.S` operand is extended by zeros, as a single-precision result is. -/
theorem operandY_upperHalf {cs : List Char} (hprec : op.getLsbD 1 = false) (h : operandY op cs = .ok y) :
    y.extractLsb' 32 32 = 0#32 := by
  simp only [operandY, hprec, Bool.false_eq_true, if_false] at h
  cases hb : operandBits binary32 cs with
  | error why => rw [hb] at h; cases h
  | ok b =>
    rw [hb] at h
    obtain rfl : result32 b = y := Except.ok.inj h
    exact result32_upperHalf b

/-- The first word of a line ends at its first space. -/
theorem splitWord_append_space {name : List Char} (h : ' ' ∉ name) (operand : List Char) :
    splitWord (name ++ ' ' :: operand) = (name, operand.dropWhile (· = ' ')) := by
  induction name with
  | nil => rfl
  | cons c cs ih =>
    rw [List.mem_cons, not_or] at h
    obtain ⟨hc, hcs⟩ := h
    rw [List.cons_append, splitWord, if_neg (Ne.symm hc), ih hcs]

/-- R70: a line stands for the same request under any other name of its operation word. -/
theorem assemble_congr_name (name name' : String)
    (h : ' ' ∉ name.toList ∧ ' ' ∉ name'.toList ∧ mnemonicOp name.toList = mnemonicOp name'.toList)
    (operand : List Char) :
    assemble ((name ++ " ").toList ++ operand) = assemble ((name' ++ " ").toList ++ operand) := by
  obtain ⟨hspace, hspace', hop⟩ := h
  have hline (n : String) : (n ++ " ").toList ++ operand = n.toList ++ ' ' :: operand := by
    rw [String.toList_append, List.append_assoc]
    rfl
  simp only [assemble, hline, splitWord_append_space hspace, splitWord_append_space hspace', hop]

end Sys2Proof.Machine

namespace Sys2Proof.Proofs
open Sys2Proof.Machine

/-- Settles O6: a defined word is laid out from its fields, and an instruction is the row of R63 with its own. -/
theorem decodeEncodeAgree : Obligations.DecodeEncodeAgree := by
  intro q i
  constructor
  · exact encode_of_decode
  · rintro rfl
    exact decode_encode i

/-- Settles O23: `PREC` is bit 1 of the word, and a single-precision result reads the lower operand half only. -/
theorem upperOperandHalfIsIgnored : Obligations.UpperOperandHalfIsIgnored := by
  intro p q hop hprec hlow
  unfold outcomeOf
  rw [← hop]
  cases hd : decodeOp p.op with
  | none => rfl
  | some f =>
    have hp32 : f.prec = .p32 := by rw [prec_of_decodeOp hd, hprec]; rfl
    simp only [hp32, approx_p32_congr _ _ _ hlow]

/-- Settles O47: every row of the mnemonic table has a defined word, and a `.S` operand is extended by zeros. -/
theorem assembledLinesAreDefined : Obligations.AssembledLinesAreDefined := by
  intro line q h
  obtain ⟨hname, hoperand⟩ := assemble_ok_inv h
  exact ⟨exists_decode_ok_of_lt (mnemonicOp_lt_twelve hname), fun hprec => operandY_upperHalf hprec hoperand⟩

/-- Settles O1: in two of the three forms in which a completion is due, the list it leaves is the list as it was. -/
theorem stepRunsTheDecodedRequest : Obligations.StepRunsTheDecodedRequest := by
  intro s q i hp hd
  refine ⟨fun hi => ?empty, fun p rest hi => ?waiting, fun rest hi => ?completion⟩
  case empty => rw [step_exec_of_completionDue hp hd (.inl ⟨hi, rfl⟩), State.with_inputs_self hi]
  case waiting => rw [step_exec_of_completionDue hp hd (.inr (.inl ⟨p, rest, hi, rfl⟩)), State.with_inputs_self hi]
  case completion => exact step_exec_of_completionDue hp hd (.inr (.inr hi))

/-- Settles O3: the twelve words are the ones R63's rows are encoded with. -/
theorem writtenWordsDecode : Obligations.WrittenWordsDecode := fun y =>
  ⟨decode_encode (.frsqrtaS y), decode_encode (.fsqrtaS y), decode_encode (.frsqrtaD y), decode_encode (.fsqrtaD y),
    decode_encode (.frsqrtaSNr1 y), decode_encode (.fsqrtaSNr1 y), decode_encode (.frsqrtaDNr1 y),
    decode_encode (.fsqrtaDNr1 y), decode_encode (.frsqrtaSNr2 y), decode_encode (.fsqrtaSNr2 y),
    decode_encode (.frsqrtaDNr2 y), decode_encode (.fsqrtaDNr2 y)⟩

/-- Settles O4: the branches of R64's `decode`, and that the twelve words are the numbers below twelve. -/
theorem decodeAcceptsExactlyTwelveWords : Obligations.DecodeAcceptsExactlyTwelveWords := by
  refine ⟨fun op => ⟨fun hres => ?reserved, fun hrsv hnr => ?defined⟩, fun op => ?words⟩
  case reserved =>
    rw [decodeOp_eq_none_iff, ← Nat.not_lt, ← fieldsLegal_iff_lt_twelve, not_and_or, Nat.not_le]
    exact hres
  case defined => exact decodeOp_eq_some_iff.mpr ⟨hrsv, hnr, rfl⟩
  case words => rw [decodeOp_isSome_iff, mem_words_iff_lt_twelve]

/-- Settles O5: R65's two ranges together are the words from `0x0C` up. -/
theorem reservedWordsAreRejected : Obligations.ReservedWordsAreRejected := by
  intro op y
  rw [decode_error_iff, decodeOp_eq_none_iff]
  simp only [and_true]
  omega

/-- Settles O14: the outcome of a reserved word is the refusal that names it, and `refuse` is its next state. -/
theorem reservedRequestIsRefused : Obligations.ReservedRequestIsRefused := by
  intro s q rest hp hdue hreserved
  have hnone : decodeOp q.op = none := decodeOp_eq_none_iff.mpr (by omega)
  rw [step_answer_of_completionDue hp hdue, outcomeOf_of_decodeOp_none hnone]
  simp only [State.answer, State.refuse, State.observed_pending (s := { s with inputs := rest }) hp]

/-- Settles O48: each pair of names stands for one operation word, and the operand is what follows the first space. -/
theorem pseudoInstructionsExpand : Obligations.PseudoInstructionsExpand := fun operand =>
  ⟨assemble_congr_name "approx_inverse_sqrt_f32" "FRSQRTA.S" (by decide) operand,
    assemble_congr_name "approx_sqrt_f32" "FSQRTA.S" (by decide) operand,
    assemble_congr_name "approx_inverse_sqrt_f64" "FRSQRTA.D" (by decide) operand,
    assemble_congr_name "approx_sqrt_f64" "FSQRTA.D" (by decide) operand,
    assemble_congr_name "FRSQRTA.S.NR0" "FRSQRTA.S" (by decide) operand,
    assemble_congr_name "FSQRTA.S.NR0" "FSQRTA.S" (by decide) operand,
    assemble_congr_name "FRSQRTA.D.NR0" "FRSQRTA.D" (by decide) operand,
    assemble_congr_name "FSQRTA.D.NR0" "FSQRTA.D" (by decide) operand⟩

end Sys2Proof.Proofs
end

section
/-! PROOF. The approximation (40_approx.md): the halving and the four seeds as integers (R82 to R87), where they wrap (R94),
their range, monotonicity and accuracy with the sign bit clear (R95 to R97), and what the twelve operations answer (R90 to
R93). -/

namespace Sys2Proof.Machine

variable {w : Nat} {c v y : BitVec w}

/-! ### The halving (R10, R82) -/

/-- R82: the floor of half the signed reading. -/
@[simp] theorem asr1_toInt (v : BitVec w) : (asr1 v).toInt = v.toInt / 2 := by
  rw [asr1, BitVec.toInt_sshiftRight, Int.shiftRight_eq_div_pow, pow_one, Nat.cast_ofNat]

theorem asr1_eq_ofInt (v : BitVec w) : asr1 v = BitVec.ofInt w (v.toInt / 2) := by
  rw [← asr1_toInt, BitVec.ofInt_toInt]

@[simp] theorem asr1_msb (v : BitVec w) : (asr1 v).msb = v.msb := BitVec.msb_sshiftRight

@[simp] theorem lsr1_msb (v : BitVec w) : (lsr1 v).msb = false := by
  rw [lsr1, BitVec.msb_ushiftRight, decide_eq_true Nat.one_pos, Bool.not_true, Bool.false_and]

/-- The arithmetic shift keeps the sign bit and the logical one clears it. -/
theorem asr1_ne_lsr1 (h : v.msb = true) : asr1 v ≠ lsr1 v := by
  intro heq
  have hmsb : v.msb = false := by rw [← asr1_msb, heq, lsr1_msb]
  rw [h] at hmsb
  cases hmsb

/-- R10: the sign bit, and under it every bit but the lowest. -/
theorem asr1_eq_append {n : Nat} (v : BitVec (1 + n)) : asr1 v = v.extractLsb' n 1 ++ v.extractLsb' 1 n := by
  ext i hi
  rw [asr1, BitVec.getElem_sshiftRight, BitVec.getElem_append]
  by_cases hlow : i < n
  · simp [hlow]
  · obtain rfl : i = n := by omega
    simp [BitVec.msb_eq_getLsbD_last]

/-- The halving reads every bit but the lowest: it is their sign extension. -/
theorem asr1_eq_signExtend {n : Nat} (hn : 0 < n) (v : BitVec (1 + n)) :
    asr1 v = (v.extractLsb' 1 n).signExtend (1 + n) := by
  ext i hi
  rw [asr1, BitVec.getElem_sshiftRight, BitVec.getElem_signExtend]
  by_cases hlow : i < n
  · simp [hlow]
  · obtain rfl : i = n := by omega
    simp [BitVec.msb_eq_getLsbD_last, hn, Nat.add_sub_cancel' hn]

/-- With the sign bit clear the signed and the unsigned reading are the same. -/
theorem asr1_toNat (h : v.msb = false) : (asr1 v).toNat = v.toNat / 2 := by
  rw [asr1, BitVec.sshiftRight_eq_of_msb_false h, BitVec.toNat_ushiftRight, Nat.shiftRight_eq_div_pow, pow_one]

/-! ### A constant plus or minus the halving (R84 to R87) -/

theorem add_asr1_eq_ofInt (c y : BitVec w) : c + asr1 y = BitVec.ofInt w (c.toInt + y.toInt / 2) := by
  rw [← BitVec.toInt_inj, BitVec.toInt_add, BitVec.toInt_ofInt, asr1_toInt]

theorem sub_asr1_eq_ofInt (c y : BitVec w) : c - asr1 y = BitVec.ofInt w (c.toInt - y.toInt / 2) := by
  rw [← BitVec.toInt_inj, BitVec.toInt_sub, BitVec.toInt_ofInt, asr1_toInt]

theorem seedInv32_eq_ofInt (rom : ConstantRom) (y : Bits32) :
    seedInv32 rom y = BitVec.ofInt 32 (0x5F37BE77 - y.toInt / 2) := sub_asr1_eq_ofInt _ y

theorem seedSqrt32_eq_ofInt (rom : ConstantRom) (y : Bits32) :
    seedSqrt32 rom y = BitVec.ofInt 32 (0x1FBD3F7D + y.toInt / 2) := add_asr1_eq_ofInt _ y

theorem seedInv64_eq_ofInt (rom : ConstantRom) (y : Bits64) :
    seedInv64 rom y = BitVec.ofInt 64 (0x5FE6F7CED9168800 - y.toInt / 2) := sub_asr1_eq_ofInt _ y

theorem seedSqrt64_eq_ofInt (rom : ConstantRom) (y : Bits64) :
    seedSqrt64 rom y = BitVec.ofInt 64 (0x1FF7A7EF9DB22D00 + y.toInt / 2) := add_asr1_eq_ofInt _ y

/-- An integer is read back exactly when it is in the signed range; else it wraps. -/
theorem toInt_ofInt_eq_self_iff (hw : 0 < w) {n : Int} :
    (BitVec.ofInt w n).toInt = n ↔ -2 ^ (w - 1) ≤ n ∧ n < 2 ^ (w - 1) := by
  constructor
  · intro h
    rw [← h]
    exact ⟨BitVec.le_toInt _, BitVec.toInt_lt⟩
  · rintro ⟨hlow, hhigh⟩
    exact BitVec.toInt_ofInt_eq_self hw hlow hhigh

/-! ### The seeds with the sign bit clear (R95) -/

theorem add_asr1_toNat (hc : 2 * c.toNat < 2 ^ w) (hy : y.msb = false) : (c + asr1 y).toNat = c.toNat + y.toNat / 2 := by
  have hlt := BitVec.msb_eq_false_iff_two_mul_lt.mp hy
  rw [BitVec.toNat_add_of_lt (by rw [asr1_toNat hy]; omega), asr1_toNat hy]

theorem sub_asr1_toNat (hc : 2 ^ w ≤ 4 * c.toNat) (hy : y.msb = false) : (c - asr1 y).toNat = c.toNat - y.toNat / 2 := by
  have hlt := BitVec.msb_eq_false_iff_two_mul_lt.mp hy
  rw [BitVec.toNat_sub_of_le (by rw [BitVec.le_def, asr1_toNat hy]; omega), asr1_toNat hy]

theorem seedInv32_toNat (rom : ConstantRom) {y : Bits32} (h : y.msb = false) :
    (seedInv32 rom y).toNat = 1597488759 - y.toNat / 2 := sub_asr1_toNat (by rw [rom.magicInvSqrt32_toNat]; decide) h

theorem seedSqrt32_toNat (rom : ConstantRom) {y : Bits32} (h : y.msb = false) :
    (seedSqrt32 rom y).toNat = 532496253 + y.toNat / 2 :=
  add_asr1_toNat (by rw [rom.magicSqrt32_toNat]; decide) h

theorem seedInv64_toNat (rom : ConstantRom) {y : Bits64} (h : y.msb = false) :
    (seedInv64 rom y).toNat = 6910483146024060928 - y.toNat / 2 :=
  sub_asr1_toNat (by rw [rom.magicInvSqrt64_toNat]; decide) h

theorem seedSqrt64_toNat (rom : ConstantRom) {y : Bits64} (h : y.msb = false) :
    (seedSqrt64 rom y).toNat = 2303494382008020224 + y.toNat / 2 :=
  add_asr1_toNat (by rw [rom.magicSqrt64_toNat]; decide) h

theorem isNormal_iff {F : Format w} : isNormal F v = true ↔ F.expField v ≠ 0 ∧ F.expField v ≠ F.expOnes := by
  rw [isNormal, Bool.and_eq_true, bne_iff_ne, bne_iff_ne]

/-- A positive normal number is a pattern from the least exponent field up to, and not with, the all-ones one. -/
theorem Format.WellLaidOut.positive_normal_of_toNat {F : Format w} (hF : F.WellLaidOut)
    (hlow : 2 ^ F.fracBits ≤ v.toNat) (hhigh : v.toNat < F.expOnes * 2 ^ F.fracBits) :
    v.msb = false ∧ isNormal F v = true := by
  have hones := expOnes_lt (F := F)
  have hquot : v.toNat / 2 ^ F.fracBits < F.expOnes := Nat.div_lt_of_lt_mul (by rwa [Nat.mul_comm])
  have hexp : F.expField v = v.toNat / 2 ^ F.fracBits := Nat.mod_eq_of_lt (hquot.trans hones)
  constructor
  · rw [BitVec.msb_eq_false_iff_two_mul_lt, hF.two_pow_width, Nat.mul_assoc]
    exact Nat.mul_lt_mul_of_pos_left (hhigh.trans_le (Nat.mul_le_mul_right _ hones.le)) two_pos
  · rw [isNormal_iff, hexp]
    exact ⟨(Nat.div_pos hlow (Nat.two_pow_pos _)).ne', hquot.ne⟩

/-- R95: with the sign bit clear no seed leaves the positive normal numbers. -/
theorem seed32_positive_normal (rom : ConstantRom) (dir : Dir) {y : Bits32} (h : y.msb = false) :
    (seed32 rom dir y).msb = false ∧ isNormal binary32 (seed32 rom dir y) = true := by
  have hy := BitVec.toNat_lt_of_msb_false h
  suffices hrange : 2 ^ 23 ≤ (seed32 rom dir y).toNat ∧ (seed32 rom dir y).toNat < 255 * 2 ^ 23 from
    Format.binary32_wellLaidOut.positive_normal_of_toNat hrange.1 hrange.2
  cases dir with
  | inv => rw [seed32, seedInv32_toNat rom h]; omega
  | sqrt => rw [seed32, seedSqrt32_toNat rom h]; omega

theorem seed64_positive_normal (rom : ConstantRom) (dir : Dir) {y : Bits64} (h : y.msb = false) :
    (seed64 rom dir y).msb = false ∧ isNormal binary64 (seed64 rom dir y) = true := by
  have hy := BitVec.toNat_lt_of_msb_false h
  suffices hrange : 2 ^ 52 ≤ (seed64 rom dir y).toNat ∧ (seed64 rom dir y).toNat < 2047 * 2 ^ 52 from
    Format.binary64_wellLaidOut.positive_normal_of_toNat hrange.1 hrange.2
  cases dir with
  | inv => rw [seed64, seedInv64_toNat rom h]; omega
  | sqrt => rw [seed64, seedSqrt64_toNat rom h]; omega

/-- R15: a NaN or an infinity has the all-ones exponent field, so it is no normal number. -/
theorem not_isNaN_or_isInf_of_isNormal {F : Format w} (h : isNormal F v = true) :
    ¬ (isNaN F v = true ∨ isInf F v = true) := by
  obtain ⟨-, hones⟩ := isNormal_iff.mp h
  simp [isNaN, isInf, hones]

/-! ### The lowest bit (R96) -/

theorem seed32_congr (rom : ConstantRom) (dir : Dir) {a b : Bits32} (h : a.extractLsb' 1 31 = b.extractLsb' 1 31) :
    seed32 rom dir a = seed32 rom dir b := by
  have hasr : asr1 a = asr1 b := by
    rw [asr1_eq_signExtend (n := 31) (by decide) a, asr1_eq_signExtend (n := 31) (by decide) b, h]
  cases dir with
  | inv => rw [seed32, seedInv32, seedInv32, hasr]
  | sqrt => rw [seed32, seedSqrt32, seedSqrt32, hasr]

theorem seed64_congr (rom : ConstantRom) (dir : Dir) {a b : Bits64} (h : a.extractLsb' 1 63 = b.extractLsb' 1 63) :
    seed64 rom dir a = seed64 rom dir b := by
  have hasr : asr1 a = asr1 b := by
    rw [asr1_eq_signExtend (n := 63) (by decide) a, asr1_eq_signExtend (n := 63) (by decide) b, h]
  cases dir with
  | inv => rw [seed64, seedInv64, seedInv64, hasr]
  | sqrt => rw [seed64, seedSqrt64, seedSqrt64, hasr]

/-! ### The instructions (R80, R90 to R93) -/

/-- R80 with `nr = 0`, 1 and 2 in single precision. -/
theorem approx_p32_zero (rom : ConstantRom) (dir : Dir) (Y : Bits64) :
    approx rom dir .p32 0 Y = result32 (seed32 rom dir (operand32 Y)) := rfl

theorem approx_p32_one (rom : ConstantRom) (dir : Dir) (Y : Bits64) :
    approx rom dir .p32 1 Y = result32 (refine32 dir (operand32 Y) (seed32 rom dir (operand32 Y))) := rfl

theorem approx_p32_two (rom : ConstantRom) (dir : Dir) (Y : Bits64) :
    approx rom dir .p32 2 Y =
      result32 (refine32 dir (operand32 Y) (refine32 dir (operand32 Y) (seed32 rom dir (operand32 Y)))) := rfl

/-- R80 with `nr = 0`, 1 and 2 in double precision, where the operand and the result are the bus values. -/
theorem approx_p64_zero (rom : ConstantRom) (dir : Dir) (Y : Bits64) : approx rom dir .p64 0 Y = seed64 rom dir Y := rfl

theorem approx_p64_one (rom : ConstantRom) (dir : Dir) (Y : Bits64) :
    approx rom dir .p64 1 Y = refine64 dir Y (seed64 rom dir Y) := rfl

theorem approx_p64_two (rom : ConstantRom) (dir : Dir) (Y : Bits64) :
    approx rom dir .p64 2 Y = refine64 dir Y (refine64 dir Y (seed64 rom dir Y)) := rfl

theorem State.respond_eq_responded (s : State) (r : Bits64) : s.respond r = s.responded r := by
  cases hp : s.pending with
  | none => simp [State.respond, State.responded, State.observed, hp]
  | some q => simp [State.respond, State.responded, State.observed, hp]

/-- Every instruction answers R80's result for it, from every state. -/
theorem exec_eq_responded (i : Instr) (s : State) :
    exec i s = .next (s.responded (approx {} i.dir i.prec i.nr i.y)) := by
  rw [exec_eq_respond, State.respond_eq_responded]

theorem exec_of_approx {i : Instr} {r : Bits64} (h : approx {} i.dir i.prec i.nr i.y = r) (s : State) :
    exec i s = .next (s.responded r) := by
  rw [exec_eq_responded, h]

end Sys2Proof.Machine

namespace Sys2Proof.Machine

variable {w : Nat} {F : Format w} {v y g : BitVec w} {P S V q ρ σ τ : ℚ} {b n : ℤ}

/-! ### The value of a positive normal pattern -/

/-- `2 ^ q` at the integers, and linear between two of them. A positive normal pattern read as a fixed-point number is the
logarithm of its value in this sense, which is what makes the seeds work. -/
def chordExp2 (q : ℚ) : ℚ := (1 + Int.fract q) * 2 ^ ⌊q⌋

theorem chordExp2_pos (q : ℚ) : 0 < chordExp2 q :=
  mul_pos (by linarith [Int.fract_nonneg q]) (zpow_pos two_pos _)

/-- Between two integers `chordExp2` is a chord. -/
theorem chordExp2_of_mem (hlow : n ≤ q) (hhigh : q < n + 1) : chordExp2 q = (1 + (q - n)) * 2 ^ n := by
  rw [chordExp2, Int.fract, Int.floor_eq_iff.mpr ⟨hlow, hhigh⟩]

theorem chordExp2_add_int (q : ℚ) (n : ℤ) : chordExp2 (q + n) = chordExp2 q * 2 ^ n := by
  rw [chordExp2, chordExp2, Int.fract_add_intCast, Int.floor_add_intCast, zpow_add₀ two_ne_zero, mul_assoc]

theorem chordExp2_of_mem_zero_one (hlow : 0 ≤ q) (hhigh : q < 1) : chordExp2 q = 1 + q := by
  simpa using chordExp2_of_mem (n := 0) (by simpa using hlow) (by simpa using hhigh)

theorem chordExp2_of_mem_one_two (hlow : 1 ≤ q) (hhigh : q < 2) : chordExp2 q = 2 * q := by
  rw [chordExp2_of_mem (n := 1) (by simpa using hlow) (by norm_num; exact hhigh)]
  norm_num
  ring

/-- The pattern as a fixed-point number: its exponent field before the point, its fraction field after it. -/
def Format.fixedPoint (F : Format w) (v : BitVec w) : ℚ := v.toNat / 2 ^ F.fracBits

/-- R15: the value of a positive normal number is `2 ^ (e - bias)` times one and its fraction. -/
theorem Format.WellLaidOut.toRat_value (hF : F.WellLaidOut) (hmsb : v.msb = false) (hnormal : isNormal F v = true) :
    (F.value v).toRat = chordExp2 (F.fixedPoint v) * 2 ^ (-(F.bias : ℤ)) := by
  obtain ⟨hzero, hones⟩ := isNormal_iff.mp hnormal
  have hfields : F.fixedPoint v = (F.expField v : ℤ) + F.fracField v / 2 ^ F.fracBits := by
    rw [fixedPoint, hF.toNat_eq_fields v, hmsb]
    push_cast
    field_simp
    simp
  have hfrac : (F.fracField v : ℚ) / 2 ^ F.fracBits < 1 := by
    rw [div_lt_one (by positivity)]
    exact_mod_cast fracField_lt v
  have hexp : F.qMin + ((F.expField v : ℤ) - 1) = F.expField v + -F.bias + -F.fracBits := by rw [qMin]; ring
  rw [value, datum_of_normal hones hzero, Datum.value_fin, FloatVal.toRat, hmsb, signFactor, hexp,
    chordExp2_of_mem (n := F.expField v) (by rw [hfields]; simp; positivity) (by rw [hfields]; linarith), hfields,
    zpow_add₀ two_ne_zero, zpow_add₀ two_ne_zero, zpow_neg _ (F.fracBits : ℤ), zpow_natCast]
  push_cast
  field_simp
  simp

/-! ### Six per cent (R97) -/

/-- Over two binades of the operand: half the logarithm and 0.4785 give the root within 6%. -/
theorem chordExp2_sq_bounds (hρ : 0 ≤ ρ) (hρ2 : ρ < 2) (h : |σ - (4785 / 10000 + ρ / 2)| ≤ 1 / 10000) :
    (94 / 100) ^ 2 * (2 * chordExp2 ρ) < chordExp2 σ ^ 2 ∧ chordExp2 σ ^ 2 < (106 / 100) ^ 2 * (2 * chordExp2 ρ) := by
  obtain ⟨hlow, hhigh⟩ := abs_le.mp h
  obtain hρ1 | hρ1 := lt_or_ge ρ 1
  · rw [chordExp2_of_mem_zero_one hρ hρ1, chordExp2_of_mem_zero_one (by linarith) (by linarith)]
    constructor <;> nlinarith
  · rw [chordExp2_of_mem_one_two hρ1 hρ2]
    obtain hσ | hσ := lt_or_ge σ 1
    · rw [chordExp2_of_mem_zero_one (by linarith) hσ]
      constructor <;> nlinarith
    · rw [chordExp2_of_mem_one_two hσ (by linarith)]
      constructor <;> nlinarith

/-- Over two binades of the operand: 1.4355 minus half the logarithm gives the inverse root within 6%. In each
case the product has three factors of a fixed sum, so it is at most their mean's cube (`hmean`); and the square is above its
tangents (`htangent`). -/
theorem chordExp2_inv_sq_bounds (hρ : 0 ≤ ρ) (hρ2 : ρ < 2) (h : |τ - (14355 / 10000 - ρ / 2)| ≤ 1 / 10000) :
    (94 / 100) ^ 2 * 8 < chordExp2 τ ^ 2 * chordExp2 ρ ∧ chordExp2 τ ^ 2 * chordExp2 ρ < (106 / 100) ^ 2 * 8 := by
  obtain ⟨hlow, hhigh⟩ := abs_le.mp h
  obtain hρ1 | hρ1 := lt_or_ge ρ 1
  · rw [chordExp2_of_mem_zero_one hρ hρ1]
    obtain hτ | hτ := lt_or_ge τ 1
    · rw [chordExp2_of_mem_zero_one (by linarith) hτ]
      constructor
      · have htangent : 0 ≤ (1 - τ) ^ 2 * (1 + ρ) := by positivity
        nlinarith [mul_pos (sub_pos.mpr hτ) (sub_pos.mpr hρ1)]
      · nlinarith
    · rw [chordExp2_of_mem_one_two hτ (by linarith)]
      constructor
      · have htangent : 0 ≤ (τ - 1) ^ 2 * (1 + ρ) := by positivity
        nlinarith [mul_nonneg (sub_nonneg.mpr hτ) hρ]
      · have hmean : 0 ≤ (2 * τ + 1.2904) * (τ - 1.2904) ^ 2 := by positivity
        nlinarith
  · rw [chordExp2_of_mem_one_two hρ1 hρ2, chordExp2_of_mem_zero_one (by linarith) (by linarith)]
    constructor
    · have htangent : 0 ≤ (τ - 0.9) ^ 2 * ρ := by positivity
      nlinarith [mul_nonneg (sub_nonneg.mpr hρ1) (sub_pos.mpr hρ2).le]
    · have hτ : 0 < 1 + τ := by linarith
      have hmean : 0 ≤ (2 * (1 + τ) + 1.6238) * (1 + τ - 1.6238) ^ 2 := by positivity
      nlinarith

/-- A logarithm lies in one of two binades, up to an even number of them. -/
theorem exists_two_binades (P : ℚ) : ∃ (a : ℤ) (ρ : ℚ), 0 ≤ ρ ∧ ρ < 2 ∧ P = ρ + (2 * a : ℤ) := by
  refine ⟨⌊P / 2⌋, P - (2 * ⌊P / 2⌋ : ℤ), ?_, ?_, by ring⟩ <;> push_cast
  · linarith [Int.floor_le (P / 2)]
  · linarith [Int.lt_floor_add_one (P / 2)]

/-- With the bias `2b + 1` of both formats: `b + 0.4785` and half the logarithm of `x` give its root within 6%. An even number
of binades of `x` moves the root by half as many, so two binades of `x` show it. -/
theorem chordExp2_root_within (h : |S - (b + 4785 / 10000 + P / 2)| ≤ 1 / 10000) :
    (94 / 100) ^ 2 * (chordExp2 P * 2 ^ (-(2 * b + 1))) < (chordExp2 S * 2 ^ (-(2 * b + 1))) ^ 2 ∧
    (chordExp2 S * 2 ^ (-(2 * b + 1))) ^ 2 < (106 / 100) ^ 2 * (chordExp2 P * 2 ^ (-(2 * b + 1))) := by
  obtain ⟨a, ρ, hρ, hρ2, rfl⟩ := exists_two_binades P
  obtain ⟨σ, rfl⟩ : ∃ σ : ℚ, S = σ + (a + b : ℤ) := ⟨S - (a + b : ℤ), by ring⟩
  have hσ : |σ - (4785 / 10000 + ρ / 2)| ≤ 1 / 10000 := by
    convert h using 2
    push_cast
    ring
  have hpow : (0 : ℚ) < (2 ^ (a - b - 1)) ^ 2 := by positivity
  obtain ⟨hlow, hhigh⟩ := chordExp2_sq_bounds hρ hρ2 hσ
  have hx : chordExp2 (ρ + (2 * a : ℤ)) * 2 ^ (-(2 * b + 1)) = 2 * chordExp2 ρ * (2 ^ (a - b - 1)) ^ 2 := by
    have hexp : (2 : ℚ) ^ (2 * a) * 2 ^ (-(2 * b + 1)) = 2 * (2 ^ (a - b - 1)) ^ 2 := by
      rw [← zpow_natCast, ← zpow_mul, ← zpow_add₀ two_ne_zero, ← zpow_one_add₀ two_ne_zero]
      congr 1
      push_cast
      ring
    rw [chordExp2_add_int, mul_assoc, hexp]
    ring
  have hr : chordExp2 (σ + (a + b : ℤ)) * 2 ^ (-(2 * b + 1)) = chordExp2 σ * 2 ^ (a - b - 1) := by
    rw [chordExp2_add_int, mul_assoc, ← zpow_add₀ two_ne_zero]
    congr 2
    ring
  rw [hx, hr, mul_pow, ← mul_assoc ((94 / 100) ^ 2), ← mul_assoc ((106 / 100) ^ 2)]
  exact ⟨mul_lt_mul_of_pos_right hlow hpow, mul_lt_mul_of_pos_right hhigh hpow⟩

/-- With the bias `2b + 1`: `3b + 1.4355` minus half the logarithm of `x` gives its inverse root within 6%. -/
theorem chordExp2_inv_root_within (h : |V - (3 * b + 1 + 4355 / 10000 - P / 2)| ≤ 1 / 10000) :
    (94 / 100) ^ 2 < (chordExp2 V * 2 ^ (-(2 * b + 1))) ^ 2 * (chordExp2 P * 2 ^ (-(2 * b + 1))) ∧
    (chordExp2 V * 2 ^ (-(2 * b + 1))) ^ 2 * (chordExp2 P * 2 ^ (-(2 * b + 1))) < (106 / 100) ^ 2 := by
  obtain ⟨a, ρ, hρ, hρ2, rfl⟩ := exists_two_binades P
  obtain ⟨τ, rfl⟩ : ∃ τ : ℚ, V = τ + (3 * b - a : ℤ) := ⟨V - (3 * b - a : ℤ), by ring⟩
  have hτ : |τ - (14355 / 10000 - ρ / 2)| ≤ 1 / 10000 := by
    convert h using 2
    push_cast
    ring
  obtain ⟨hlow, hhigh⟩ := chordExp2_inv_sq_bounds hρ hρ2 hτ
  have hexp : ((2 : ℚ) ^ (3 * b - a) * 2 ^ (-(2 * b + 1))) ^ 2 * (2 ^ (2 * a) * 2 ^ (-(2 * b + 1))) = 1 / 8 := by
    rw [← zpow_natCast, ← zpow_add₀ two_ne_zero, ← zpow_add₀ two_ne_zero, ← zpow_mul,
      ← zpow_add₀ two_ne_zero]
    have hsum : (3 * b - a + -(2 * b + 1)) * ((2 : ℕ) : ℤ) + (2 * a + -(2 * b + 1)) = -3 := by push_cast; ring
    rw [hsum]
    norm_num
  have hproduct : (chordExp2 (τ + (3 * b - a : ℤ)) * 2 ^ (-(2 * b + 1))) ^ 2 *
      (chordExp2 (ρ + (2 * a : ℤ)) * 2 ^ (-(2 * b + 1))) = chordExp2 τ ^ 2 * chordExp2 ρ * (1 / 8) := by
    rw [chordExp2_add_int, chordExp2_add_int, ← hexp]
    ring
  rw [hproduct]
  constructor <;> linarith

/-! ### The seeds of a format, as fixed-point numbers -/

theorem abs_natHalf_sub_le (m : ℕ) : |((m / 2 : ℕ) : ℚ) - m / 2| ≤ 1 / 2 := by
  have hlow : ((2 * (m / 2) : ℕ) : ℚ) ≤ m := by exact_mod_cast Nat.mul_div_le m 2
  have hhigh : (m : ℚ) ≤ (2 * (m / 2) + 1 : ℕ) := by exact_mod_cast (by omega : m ≤ 2 * (m / 2) + 1)
  push_cast at hlow hhigh
  exact abs_le.mpr ⟨by linarith, by linarith⟩

/-- Dropping the lowest bit of the operand costs the seed half of its last place. -/
theorem Format.abs_natHalf_div_sub_le (hk : 10000 ≤ 2 ^ F.fracBits) (y : BitVec w) :
    |((y.toNat / 2 : ℕ) : ℚ) / 2 ^ F.fracBits - F.fixedPoint y / 2| ≤ 1 / 20000 := by
  have hk' : (10000 : ℚ) ≤ 2 ^ F.fracBits := by exact_mod_cast hk
  calc
    _ = |(((y.toNat / 2 : ℕ) : ℚ) - y.toNat / 2) / 2 ^ F.fracBits| := by rw [fixedPoint, sub_div, div_right_comm]
    _ = |((y.toNat / 2 : ℕ) : ℚ) - y.toNat / 2| / 2 ^ F.fracBits := by
      rw [abs_div, abs_of_pos (a := (2 : ℚ) ^ F.fracBits) (by positivity)]
    _ ≤ 1 / 2 / 10000 := by gcongr; exact abs_natHalf_sub_le _
    _ = 1 / 20000 := by norm_num

section
variable {k : ℕ} (hF : F.WellLaidOut) (hbias : (F.bias : ℤ) = 2 * b + 1) (hk : 10000 ≤ 2 ^ F.fracBits)
  (hy : y.msb = false ∧ isNormal F y = true) (hg : g.msb = false ∧ isNormal F g = true)
include hF hbias hk hy hg

/-- A seed `k + y / 2`, where the constant `k` reads as `b + 0.4785`, has the root's value within 6%. -/
theorem Format.sqrtSeed_within (hc : |(k : ℚ) / 2 ^ F.fracBits - (b + 4785 / 10000)| ≤ 1 / 20000)
    (hseed : g.toNat = k + y.toNat / 2) :
    0 < (F.value g).toRat ∧ (94 / 100) ^ 2 * (F.value y).toRat < (F.value g).toRat ^ 2 ∧
    (F.value g).toRat ^ 2 < (106 / 100) ^ 2 * (F.value y).toRat := by
  have hfixed : F.fixedPoint g = k / 2 ^ F.fracBits + ((y.toNat / 2 : ℕ) : ℚ) / 2 ^ F.fracBits := by
    rw [fixedPoint, hseed, Nat.cast_add, add_div]
  have hnear : |F.fixedPoint g - (b + 4785 / 10000 + F.fixedPoint y / 2)| ≤ 1 / 10000 := by
    have hhalf := F.abs_natHalf_div_sub_le hk y
    rw [abs_le] at hc hhalf ⊢
    constructor <;> linarith
  rw [hF.toRat_value hy.1 hy.2, hF.toRat_value hg.1 hg.2, hbias]
  exact ⟨mul_pos (chordExp2_pos _) (by positivity), chordExp2_root_within hnear⟩

/-- A seed `k - y / 2`, where the constant `k` reads as `3b + 1.4355`, has the inverse root's value within 6%. -/
theorem Format.invSeed_within (hc : |(k : ℚ) / 2 ^ F.fracBits - (3 * b + 1 + 4355 / 10000)| ≤ 1 / 20000)
    (hseed : g.toNat + y.toNat / 2 = k) :
    0 < (F.value g).toRat ∧ (94 / 100) ^ 2 < (F.value g).toRat ^ 2 * (F.value y).toRat ∧
    (F.value g).toRat ^ 2 * (F.value y).toRat < (106 / 100) ^ 2 := by
  have hfixed : F.fixedPoint g + ((y.toNat / 2 : ℕ) : ℚ) / 2 ^ F.fracBits = k / 2 ^ F.fracBits := by
    rw [fixedPoint, ← hseed, Nat.cast_add, add_div]
  have hnear : |F.fixedPoint g - (3 * b + 1 + 4355 / 10000 - F.fixedPoint y / 2)| ≤ 1 / 10000 := by
    have hhalf := F.abs_natHalf_div_sub_le hk y
    rw [abs_le] at hc hhalf ⊢
    constructor <;> linarith
  rw [hF.toRat_value hy.1 hy.2, hF.toRat_value hg.1 hg.2, hbias]
  exact ⟨mul_pos (chordExp2_pos _) (by positivity), chordExp2_inv_root_within hnear⟩

end

end Sys2Proof.Machine

namespace Sys2Proof.Proofs
open Sys2Proof.Machine

/-- Settles O25: the halving is the floor of half the signed reading, and keeps the sign bit that the logical shift clears. -/
theorem halvingIsArithmetic : Obligations.HalvingIsArithmetic :=
  ⟨fun v => ⟨asr1_eq_ofInt v, asr1_eq_append (n := 31) v, asr1_ne_lsr1⟩,
    fun v => ⟨asr1_eq_ofInt v, asr1_eq_append (n := 63) v, asr1_ne_lsr1⟩, by decide, by decide⟩

/-- Settles O26: modular addition and subtraction are those of the signed readings, and the halving is the floor of one half. -/
theorem seedFunctions : Obligations.SeedFunctions :=
  ⟨fun y => ⟨seedInv32_eq_ofInt {} y, seedSqrt32_eq_ofInt {} y⟩,
    fun y => ⟨seedInv64_eq_ofInt {} y, seedSqrt64_eq_ofInt {} y⟩⟩

/-- Settles O27: a seed wraps exactly when the sum of the signed readings leaves the signed range. -/
theorem seedWrapRanges : Obligations.SeedWrapRanges := by
  refine ⟨fun y => ?single, fun y => ?double, by decide, by decide⟩
  case single =>
    rw [seedSqrt32_eq_ofInt, seedInv32_eq_ofInt, Ne, toInt_ofInt_eq_self_iff (by decide),
      toInt_ofInt_eq_self_iff (by decide)]
    have hlt := y.isLt
    have hread := BitVec.toInt_eq_toNat_cond y
    split at hread
    · omega
    · omega
  case double =>
    rw [seedSqrt64_eq_ofInt, seedInv64_eq_ofInt, Ne, toInt_ofInt_eq_self_iff (by decide),
      toInt_ofInt_eq_self_iff (by decide)]
    have hlt := y.isLt
    have hread := BitVec.toInt_eq_toNat_cond y
    split at hread
    · omega
    · omega

/-- Settles O28: with the sign bit clear the halving takes at most a quarter of the range, so no seed wraps. -/
theorem seedRangesOfNonnegativePatterns : Obligations.SeedRangesOfNonnegativePatterns := by
  constructor
  · intro y h
    have hy := BitVec.toNat_lt_of_msb_false h
    rw [seedSqrt32_toNat {} h, seedInv32_toNat {} h]
    exact ⟨by omega, by omega, fun dir => seed32_positive_normal {} dir h⟩
  · intro y h
    have hy := BitVec.toNat_lt_of_msb_false h
    rw [seedSqrt64_toNat {} h, seedInv64_toNat {} h]
    exact ⟨by omega, by omega, fun dir => seed64_positive_normal {} dir h⟩

/-- Settles O29: with the sign bit clear the seed is normal, and a NaN or an infinity is not. -/
theorem seedNaNNeedsSignBit : Obligations.SeedNaNNeedsSignBit := by
  refine ⟨fun dir y h => Bool.of_not_eq_false fun hy => ?single, fun dir y h => Bool.of_not_eq_false fun hy => ?double,
    by decide, by decide⟩
  case single => exact not_isNaN_or_isInf_of_isNormal (seed32_positive_normal {} dir hy).2 h
  case double => exact not_isNaN_or_isInf_of_isNormal (seed64_positive_normal {} dir hy).2 h

/-- Settles O30: with the sign bit clear the seed is the constant plus or minus half the pattern as a number; and the halving
reads every bit but the lowest. -/
theorem seedsAreMonotone : Obligations.SeedsAreMonotone := by
  refine ⟨fun a b ha hb hlt => ?single, fun a b ha hb hlt => ?double, fun dir _ _ => seed32_congr {} dir,
    fun dir _ _ => seed64_congr {} dir⟩
  case single =>
    rw [seedSqrt32_toNat {} ha, seedSqrt32_toNat {} hb, seedInv32_toNat {} ha, seedInv32_toNat {} hb]
    omega
  case double =>
    rw [seedSqrt64_toNat {} ha, seedSqrt64_toNat {} hb, seedInv64_toNat {} ha, seedInv64_toNat {} hb]
    omega

/-- Settles O49: binary32 has the bias `2 * 63 + 1`, and R7's constants read as `63 + 0.4785` and `3 * 63 + 1.4355`. -/
theorem singleSeedsWithinSixPercent : Obligations.SingleSeedsWithinSixPercent := by
  intro y hy hn
  have hlt := BitVec.toNat_lt_of_msb_false hy
  have hF := Format.binary32_wellLaidOut
  have hbias : (binary32.bias : ℤ) = 2 * 63 + 1 := rfl
  have hk : 10000 ≤ 2 ^ binary32.fracBits := by decide
  constructor
  · exact Format.sqrtSeed_within (k := 532496253) hF hbias hk ⟨hy, hn⟩ (seed32_positive_normal {} .sqrt hy)
      (by norm_num [binary32, abs_le]) (seedSqrt32_toNat {} hy)
  · exact Format.invSeed_within (k := 1597488759) (g := seedInv32 {} y) hF hbias hk ⟨hy, hn⟩
      (seed32_positive_normal {} .inv hy) (by norm_num [binary32, abs_le]) (by rw [seedInv32_toNat {} hy]; omega)

/-- Settles O50: binary64 has the bias `2 * 511 + 1`, and R7's constants read as `511 + 0.4785` and `3 * 511 + 1.4355`. -/
theorem doubleSeedsWithinSixPercent : Obligations.DoubleSeedsWithinSixPercent := by
  intro y hy hn
  have hlt := BitVec.toNat_lt_of_msb_false hy
  have hF := Format.binary64_wellLaidOut
  have hbias : (binary64.bias : ℤ) = 2 * 511 + 1 := rfl
  have hk : 10000 ≤ 2 ^ binary64.fracBits := by decide
  constructor
  · exact Format.sqrtSeed_within (k := 2303494382008020224) hF hbias hk ⟨hy, hn⟩ (seed64_positive_normal {} .sqrt hy)
      (by norm_num [binary64, abs_le]) (seedSqrt64_toNat {} hy)
  · exact Format.invSeed_within (k := 6910483146024060928) (g := seedInv64 {} y) hF hbias hk ⟨hy, hn⟩
      (seed64_positive_normal {} .inv hy) (by norm_num [binary64, abs_le]) (by rw [seedInv64_toNat {} hy]; omega)

/-- Settles O7: every instruction answers R80's result, here `seed_INV_32` refined. -/
theorem singleInverseSqrtOperations : Obligations.SingleInverseSqrtOperations :=
  ⟨fun _ => ⟨rfl, rfl, rfl⟩,
    fun Y s => ⟨exec_of_approx (i := .frsqrtaS Y) (approx_p32_zero {} .inv Y) s,
      exec_of_approx (i := .frsqrtaSNr1 Y) (approx_p32_one {} .inv Y) s,
      exec_of_approx (i := .frsqrtaSNr2 Y) (approx_p32_two {} .inv Y) s⟩,
    fun s => ⟨exec_of_approx (by decide) s, exec_of_approx (by decide) s, exec_of_approx (by decide) s,
      exec_of_approx (by decide) s, exec_of_approx (by decide) s, exec_of_approx (by decide) s,
      exec_of_approx (by decide) s⟩⟩

/-- Settles O8: every instruction answers R80's result, here `seed_SQRT_32` refined. -/
theorem singleSqrtOperations : Obligations.SingleSqrtOperations :=
  ⟨fun _ => ⟨rfl, rfl, rfl⟩,
    fun Y s => ⟨exec_of_approx (i := .fsqrtaS Y) (approx_p32_zero {} .sqrt Y) s,
      exec_of_approx (i := .fsqrtaSNr1 Y) (approx_p32_one {} .sqrt Y) s,
      exec_of_approx (i := .fsqrtaSNr2 Y) (approx_p32_two {} .sqrt Y) s⟩,
    fun s => ⟨exec_of_approx (by decide) s, exec_of_approx (by decide) s, exec_of_approx (by decide) s,
      exec_of_approx (by decide) s, exec_of_approx (by decide) s, exec_of_approx (by decide) s,
      exec_of_approx (by decide) s⟩⟩

/-- Settles O9: every instruction answers R80's result, here `seed_INV_64` refined. -/
theorem doubleInverseSqrtOperations : Obligations.DoubleInverseSqrtOperations :=
  ⟨fun _ => ⟨rfl, rfl, rfl⟩,
    fun Y s => ⟨exec_of_approx (i := .frsqrtaD Y) (approx_p64_zero {} .inv Y) s,
      exec_of_approx (i := .frsqrtaDNr1 Y) (approx_p64_one {} .inv Y) s,
      exec_of_approx (i := .frsqrtaDNr2 Y) (approx_p64_two {} .inv Y) s⟩,
    fun s => ⟨exec_of_approx (by decide) s, exec_of_approx (by decide) s, exec_of_approx (by decide) s,
      exec_of_approx (by decide) s, exec_of_approx (by decide) s, exec_of_approx (by decide) s⟩⟩

/-- Settles O10: every instruction answers R80's result, here `seed_SQRT_64` refined. -/
theorem doubleSqrtOperations : Obligations.DoubleSqrtOperations :=
  ⟨fun _ => ⟨rfl, rfl, rfl⟩,
    fun Y s => ⟨exec_of_approx (i := .fsqrtaD Y) (approx_p64_zero {} .sqrt Y) s,
      exec_of_approx (i := .fsqrtaDNr1 Y) (approx_p64_one {} .sqrt Y) s,
      exec_of_approx (i := .fsqrtaDNr2 Y) (approx_p64_two {} .sqrt Y) s⟩,
    fun s => ⟨exec_of_approx (by decide) s, exec_of_approx (by decide) s, exec_of_approx (by decide) s,
      exec_of_approx (by decide) s, exec_of_approx (by decide) s⟩⟩

/-- Settles O31 with the patterns of V-MON-1, V-MON-2 and V-MON-3. -/
theorem refinedResultsAreNotMonotone : Obligations.RefinedResultsAreNotMonotone :=
  ⟨⟨0x0080000B#32, by decide +kernel, by decide +kernel⟩, ⟨0x0080000B#32, by decide +kernel, by decide +kernel⟩,
    ⟨0x00A97323#32, by decide +kernel, by decide +kernel⟩⟩

end Sys2Proof.Proofs
end

section
/-! PROOF. The arithmetic of the refinement stage (41_refine.md R111 to R113): a number rounded once to the nearest datum, the
four operations as such roundings, and the special values. For any format with a fraction bit and a normal binade. -/

namespace Sys2Proof.Machine

variable {w : Nat} {F : Format w} {neg s t : Bool} {m n num den : ℕ} {e f q k : ℤ} {x y a : ℚ}

/-! ### Powers of two -/

/-- The two natural powers by which the model scales the sides of a fraction are one integer power. -/
theorem two_zpow_eq_toNat_div (k : ℤ) : (2 : ℚ) ^ k = 2 ^ k.toNat / 2 ^ (-k).toNat := by
  obtain ⟨n, rfl | rfl⟩ := k.eq_nat_or_neg <;> simp

theorem two_pow_mul_two_zpow (n : ℕ) (k : ℤ) : (2 : ℚ) ^ n * 2 ^ k = 2 ^ (n + k) := by
  rw [zpow_add₀ two_ne_zero, zpow_natCast]

theorem two_pow_mul_two_zpow_le {i j : ℕ} (h : i + k ≤ j + q) : (2 : ℚ) ^ i * 2 ^ k ≤ 2 ^ j * 2 ^ q := by
  rw [two_pow_mul_two_zpow, two_pow_mul_two_zpow]
  exact zpow_le_zpow_right₀ one_le_two h

/-- A fraction lies in the binade `floorLog2` gives. -/
theorem floorLog2_spec (hnum : num ≠ 0) (hden : den ≠ 0) :
    (2 : ℚ) ^ floorLog2 num den ≤ num / den ∧ (num : ℚ) / den < 2 ^ (floorLog2 num den + 1) := by
  have hdpos : (0 : ℚ) < den := by exact_mod_cast Nat.pos_of_ne_zero hden
  have hnlow : (2 : ℚ) ^ (num.log2 : ℤ) ≤ num := by exact_mod_cast Nat.log2_self_le hnum
  have hnhigh : (num : ℚ) < 2 ^ ((num.log2 : ℤ) + 1) := by exact_mod_cast Nat.lt_log2_self (n := num)
  have hdlow : (2 : ℚ) ^ (den.log2 : ℤ) ≤ den := by exact_mod_cast Nat.log2_self_le hden
  have hdhigh : (den : ℚ) < 2 ^ ((den.log2 : ℤ) + 1) := by exact_mod_cast Nat.lt_log2_self (n := den)
  have hlow : (2 : ℚ) ^ ((num.log2 : ℤ) - den.log2 - 1) ≤ num / den := by
    rw [sub_sub, zpow_sub₀ two_ne_zero]
    exact div_le_div₀ (by positivity) hnlow hdpos hdhigh.le
  have hhigh : (num : ℚ) / den < 2 ^ ((num.log2 : ℤ) - den.log2 + 1) := by
    rw [sub_add_eq_add_sub, zpow_sub₀ two_ne_zero]
    exact div_lt_div₀ hnhigh hdlow (by positivity) (zpow_pos two_pos _)
  have htest : den * 2 ^ ((num.log2 : ℤ) - den.log2).toNat ≤ num * 2 ^ (-((num.log2 : ℤ) - den.log2)).toNat ↔
      (2 : ℚ) ^ ((num.log2 : ℤ) - den.log2) ≤ num / den := by
    rw [two_zpow_eq_toNat_div, div_le_div_iff₀ (by positivity) hdpos, mul_comm den]
    exact_mod_cast Iff.rfl
  unfold floorLog2
  dsimp only
  split
  next h => exact ⟨htest.mp h, hhigh⟩
  next h => exact ⟨hlow, by rw [sub_add_cancel]; exact lt_of_not_ge (fun hge => h (htest.mpr hge))⟩

/-! ### The nearest integer -/

/-- `m` is the integer nearest to `y`, and even where two are. -/
structure NearestEven (m : ℕ) (y : ℚ) : Prop where
  near : |(m : ℚ) - y| ≤ 1 / 2
  even : |(m : ℚ) - y| = 1 / 2 → m % 2 = 0

/-- The integer `divNearestEven` gives misses the quotient by at most half the divisor, and is even at half. -/
theorem natAbs_divNearestEven_mul_sub_le (num : ℕ) (hden : den ≠ 0) :
    2 * ((divNearestEven num den * den : ℤ) - num).natAbs ≤ den ∧
    (2 * ((divNearestEven num den * den : ℤ) - num).natAbs = den → divNearestEven num den % 2 = 0) := by
  have hdiv := Nat.div_add_mod' num den
  have hmod : num % den < den := Nat.mod_lt _ (Nat.pos_of_ne_zero hden)
  have hup : ((num / den : ℕ) + 1 : ℤ) * den = (num / den * den : ℕ) + den := by push_cast; ring
  have hdown : ((num / den : ℕ) : ℤ) * den = (num / den * den : ℕ) := by push_cast; ring
  unfold divNearestEven
  dsimp only
  split_ifs with hbelow habove heven
  · rw [hdown]; omega
  · rw [Nat.cast_succ, hup]; omega
  · rw [hdown]; omega
  · rw [Nat.cast_succ, hup]; omega

theorem divNearestEven_spec (num : ℕ) (hden : den ≠ 0) : NearestEven (divNearestEven num den) (num / den) := by
  have hdpos : (0 : ℚ) < den := by exact_mod_cast Nat.pos_of_ne_zero hden
  obtain ⟨hnear, heven⟩ := natAbs_divNearestEven_mul_sub_le num hden
  have herror : |(divNearestEven num den : ℚ) - num / den| =
      (((divNearestEven num den * den : ℤ) - num).natAbs : ℚ) / den := by
    rw [Nat.cast_natAbs, sub_div' hdpos.ne', abs_div, abs_of_pos hdpos]
    push_cast
    rfl
  constructor
  case near =>
    rw [herror, div_le_div_iff₀ hdpos two_pos, one_mul, mul_comm]
    exact_mod_cast hnear
  case even =>
    intro h
    rw [herror, div_eq_div_iff hdpos.ne' two_ne_zero, one_mul, mul_comm] at h
    exact heven (by exact_mod_cast h)

section
variable (h : NearestEven m y)
include h

theorem NearestEven.near_int (z : ℤ) : |(m : ℚ) - y| ≤ |z - y| := by
  obtain rfl | hne := eq_or_ne z m
  · simp
  · have hgap : (1 : ℚ) ≤ |(z : ℚ) - m| := by exact_mod_cast Int.one_le_abs (sub_ne_zero.mpr hne)
    linarith [h.near, abs_sub_le (z : ℚ) y m, abs_sub_comm (m : ℚ) y]

theorem NearestEven.even_of_tie {z : ℤ} (hne : z ≠ m) (htie : |(m : ℚ) - y| = |z - y|) : m % 2 = 0 := by
  have hgap : (1 : ℚ) ≤ |(z : ℚ) - m| := by exact_mod_cast Int.one_le_abs (sub_ne_zero.mpr hne)
  exact h.even (by linarith [h.near, abs_sub_le (z : ℚ) y m, abs_sub_comm (m : ℚ) y])

theorem NearestEven.le_of_le (hy : y ≤ n) : m ≤ n := by
  have hnear := abs_le.mp h.near
  have hlt : (m : ℚ) < (n + 1 : ℕ) := by push_cast; linarith
  exact Nat.lt_succ_iff.mp (by exact_mod_cast hlt)

theorem NearestEven.ge_of_ge (hy : n ≤ y) : n ≤ m := by
  have hnear := abs_le.mp h.near
  have hlt : (n : ℚ) < (m + 1 : ℕ) := by push_cast; linarith
  exact Nat.lt_succ_iff.mp (by exact_mod_cast hlt)

/-- An even integer is reached from half a unit below it on: at the tie it is the even one. -/
theorem NearestEven.lt_iff_of_even (hn : n % 2 = 0) : m < n ↔ y < n - 1 / 2 := by
  have hnear := abs_le.mp h.near
  constructor
  · intro hlt
    have hle : (m : ℚ) + 1 ≤ n := by exact_mod_cast hlt
    refine lt_of_le_of_ne (by linarith) fun htie => ?_
    have hmid : (m : ℚ) + 1 = n := by linarith
    have hdist : (m : ℚ) - y = -(1 / 2) := by linarith
    have heven := h.even (by rw [hdist, abs_neg, abs_of_pos one_half_pos])
    have hnat : m + 1 = n := by exact_mod_cast hmid
    omega
  · intro hy
    exact_mod_cast (by linarith : (m : ℚ) < n)

end

/-! ### Rounding a positive number (R111, R112) -/

/-- `q` is the exponent of the quantum to which the positive number `a` is rounded: that of its binade, but not below
the least one. -/
structure Format.IsQuantum (F : Format w) (a : ℚ) (q : ℤ) : Prop where
  qMin_le : F.qMin ≤ q
  lt : a < 2 ^ (F.fracBits + 1) * 2 ^ q
  le_of_lt : F.qMin < q → 2 ^ F.fracBits * 2 ^ q ≤ a

theorem Format.isQuantum_of_binade (hlow : 2 ^ k ≤ a) (hhigh : a < 2 ^ (k + 1)) :
    F.IsQuantum a (max F.qMin (k - F.fracBits)) := by
  constructor
  case qMin_le => exact le_max_left _ _
  case lt =>
    rw [two_pow_mul_two_zpow]
    exact hhigh.trans_le (zpow_le_zpow_right₀ one_le_two (by push_cast; omega))
  case le_of_lt =>
    intro h
    rw [two_pow_mul_two_zpow]
    exact (zpow_le_zpow_right₀ one_le_two (by omega)).trans hlow

/-- The quantum `round` takes is that of the number it rounds. -/
theorem Format.isQuantum_floorLog2 (hnum : num ≠ 0) (hden : den ≠ 0) (e : ℤ) :
    F.IsQuantum (num / den * 2 ^ e) (max F.qMin (floorLog2 num den + e - F.fracBits)) := by
  obtain ⟨hlow, hhigh⟩ := floorLog2_spec hnum hden
  apply isQuantum_of_binade
  · rw [zpow_add₀ two_ne_zero]
    exact mul_le_mul_of_nonneg_right hlow (zpow_pos two_pos e).le
  · rw [add_right_comm, zpow_add₀ two_ne_zero]
    exact mul_lt_mul_of_pos_right hhigh (zpow_pos two_pos e)

/-! ### The value of a finite datum (R15) -/

theorem signFactor_xor (s t : Bool) : signFactor (s ^^ t) = signFactor s * signFactor t := by
  cases s <;> cases t <;> simp [signFactor]

theorem signFactor_mul_self (s : Bool) : signFactor s * signFactor s = 1 := by cases s <;> simp [signFactor]

theorem abs_signFactor (s : Bool) : |signFactor s| = 1 := by cases s <;> simp [signFactor]

theorem signFactor_mul_neg_iff (ha : 0 < a) : signFactor s * a < 0 ↔ s = true := by
  cases s <;> simp [signFactor, ha, ha.le]

theorem FloatVal.toRat_fin (s : Bool) (m : ℕ) (e : ℤ) :
    (FloatVal.fin s m e).toRat = signFactor s * (m * 2 ^ e) := mul_assoc _ _ _

theorem FloatVal.abs_toRat_fin (s : Bool) (m : ℕ) (e : ℤ) : |(FloatVal.fin s m e).toRat| = m * 2 ^ e := by
  rw [toRat_fin, abs_mul, abs_signFactor, one_mul, abs_of_nonneg (by positivity)]

theorem FloatVal.toRat_fin_xor (s t : Bool) (m : ℕ) (e : ℤ) :
    (FloatVal.fin (s ^^ t) m e).toRat = signFactor t * (FloatVal.fin s m e).toRat := by
  rw [toRat_fin, toRat_fin, signFactor_xor]
  ring

theorem Format.cast_signed (s : Bool) (m : ℕ) : ((signed s m : ℤ) : ℚ) = signFactor s * m := by
  cases s <;> simp [signed, signFactor]

/-- A finite datum counted in a quantum that divides its own. -/
theorem FloatVal.toRat_fin_eq_signed_mul (h : q ≤ e) :
    (FloatVal.fin s m e).toRat = (Format.signed s (m * 2 ^ (e - q).toNat) : ℤ) * 2 ^ q := by
  have hexp : (2 : ℚ) ^ e = 2 ^ (e - q).toNat * 2 ^ q := by
    rw [two_pow_mul_two_zpow]
    congr 1
    omega
  rw [toRat_fin, Format.cast_signed, hexp]
  push_cast
  ring

namespace Format

theorem Represents.lt_two_pow (h : F.Represents m e) : m < 2 ^ (F.fracBits + 1) := by
  obtain ⟨-, hm⟩ | ⟨-, -, -, hm⟩ := h
  · exact hm.trans_le (Nat.pow_le_pow_right two_pos (Nat.le_succ _))
  · exact hm

theorem Represents.qMin_le (h : F.Represents m e) : F.qMin ≤ e := by
  obtain ⟨he, -⟩ | ⟨he, -⟩ := h
  · exact he.ge
  · exact he

/-- A datum is a whole number of quanta, or lies below the binade of any larger quantum. -/
theorem Represents.multiple_or_lt (h : F.Represents m e) (s : Bool) (q : ℤ) :
    (∃ z : ℤ, (FloatVal.fin s m e).toRat = z * 2 ^ q) ∨
    F.qMin < q ∧ |(FloatVal.fin s m e).toRat| < 2 ^ F.fracBits * 2 ^ q := by
  obtain hq | hq := le_or_gt q e
  · exact .inl ⟨_, FloatVal.toRat_fin_eq_signed_mul hq⟩
  · refine .inr ⟨h.qMin_le.trans_lt hq, ?_⟩
    have hm : (m : ℚ) < 2 ^ (F.fracBits + 1) := by exact_mod_cast h.lt_two_pow
    calc
      |(FloatVal.fin s m e).toRat| = m * 2 ^ e := FloatVal.abs_toRat_fin s m e
      _ < 2 ^ (F.fracBits + 1) * 2 ^ e := mul_lt_mul_of_pos_right hm (zpow_pos two_pos e)
      _ ≤ 2 ^ F.fracBits * 2 ^ q := two_pow_mul_two_zpow_le (by omega)

section
variable (hq : F.IsQuantum a q) (hm : NearestEven m (a / 2 ^ q))
include hq

theorem IsQuantum.div_lt : a / 2 ^ q < 2 ^ (F.fracBits + 1) := (div_lt_iff₀ (zpow_pos two_pos q)).mpr hq.lt

theorem IsQuantum.le_div (h : F.qMin < q) : 2 ^ F.fracBits ≤ a / 2 ^ q :=
  (le_div_iff₀ (zpow_pos two_pos q)).mpr (hq.le_of_lt h)

include hm

theorem IsQuantum.le_two_pow : m ≤ 2 ^ (F.fracBits + 1) := hm.le_of_le (by exact_mod_cast hq.div_lt.le)

theorem IsQuantum.two_pow_le (h : F.qMin < q) : 2 ^ F.fracBits ≤ m := hm.ge_of_ge (by exact_mod_cast hq.le_div h)

/-- With no carry and no overflow the rounded significand is that of a datum. -/
theorem IsQuantum.represents (hle : q ≤ F.qMax) (hlt : m < 2 ^ (F.fracBits + 1)) : F.Represents m q := by
  obtain hsub | hnormal := hq.qMin_le.eq_or_lt
  · obtain hsmall | hlarge := lt_or_ge m (2 ^ F.fracBits)
    · exact .inl ⟨hsub.symm, hsmall⟩
    · exact .inr ⟨hq.qMin_le, hle, hlarge, hlt⟩
  · exact .inr ⟨hq.qMin_le, hle, hq.two_pow_le hm hnormal, hlt⟩

/-- No datum of the format is nearer to `a` than `m` quanta, and one as near leaves `m` even. -/
theorem IsQuantum.nearest {m' : ℕ} {e' : ℤ} (hrep : F.Represents m' e') (s' : Bool) :
    |m * 2 ^ q - a| ≤ |(FloatVal.fin s' m' e').toRat - a| ∧
    (|m * 2 ^ q - a| = |(FloatVal.fin s' m' e').toRat - a| → (FloatVal.fin s' m' e').toRat ≠ m * 2 ^ q → m % 2 = 0) := by
  have hpos : (0 : ℚ) < 2 ^ q := zpow_pos two_pos q
  have hscale (x : ℚ) : |x * 2 ^ q - a| = |x - a / 2 ^ q| * 2 ^ q := by
    rw [← abs_of_pos hpos, ← abs_mul, abs_of_pos hpos, sub_mul, div_mul_cancel₀ _ hpos.ne']
  obtain ⟨z, hz⟩ | ⟨hlt, hsmall⟩ := hrep.multiple_or_lt s' q
  · rw [hz, hscale, hscale]
    refine ⟨mul_le_mul_of_nonneg_right (hm.near_int z) hpos.le, fun htie hne => hm.even_of_tie (z := z) ?_ ?_⟩
    · rintro rfl
      exact hne (by norm_cast)
    · exact mul_right_cancel₀ hpos.ne' htie
  · have hnear : |m * 2 ^ q - a| ≤ a - 2 ^ F.fracBits * 2 ^ q := by
      have hint := hm.near_int (2 ^ F.fracBits : ℕ)
      calc
        |m * 2 ^ q - a| = |m - a / 2 ^ q| * 2 ^ q := hscale m
        _ ≤ |(2 ^ F.fracBits : ℚ) - a / 2 ^ q| * 2 ^ q :=
          mul_le_mul_of_nonneg_right (by exact_mod_cast hint) hpos.le
        _ = |2 ^ F.fracBits * 2 ^ q - a| := (hscale _).symm
        _ = a - 2 ^ F.fracBits * 2 ^ q := by rw [abs_sub_comm, abs_of_nonneg (sub_nonneg.mpr (hq.le_of_lt hlt))]
    have hfar : |m * 2 ^ q - a| < |(FloatVal.fin s' m' e').toRat - a| := by
      linarith [(abs_lt.mp hsmall).2, neg_le_abs ((FloatVal.fin s' m' e').toRat - a)]
    exact ⟨hfar.le, fun htie => absurd htie hfar.ne⟩

/-- A number is below the overflow bound exactly when the quantum after a carry is at most the largest. -/
theorem IsQuantum.lt_overflowAt_iff (hmax : F.qMin ≤ F.qMax) :
    a < F.overflowAt ↔ q < F.qMax ∨ q = F.qMax ∧ m < 2 ^ (F.fracBits + 1) := by
  have hone : (1 : ℚ) ≤ 2 ^ F.fracBits := one_le_pow₀ one_le_two
  have hpow : (2 : ℚ) ^ (F.fracBits + 1) = 2 * 2 ^ F.fracBits := pow_succ' 2 _
  have hqMax : (0 : ℚ) < 2 ^ F.qMax := zpow_pos two_pos _
  rw [overflowAt]
  obtain hlt | rfl | hgt := lt_trichotomy q F.qMax
  · have hover : a < (2 ^ (F.fracBits + 1) - 1 / 2) * 2 ^ F.qMax := by
      calc
        a < 2 ^ (F.fracBits + 1) * 2 ^ q := hq.lt
        _ ≤ 2 ^ F.fracBits * 2 ^ F.qMax := two_pow_mul_two_zpow_le (by omega)
        _ ≤ (2 ^ (F.fracBits + 1) - 1 / 2) * 2 ^ F.qMax := mul_le_mul_of_nonneg_right (by linarith) hqMax.le
    exact iff_of_true hover (.inl hlt)
  · have heven : 2 ^ (F.fracBits + 1) % 2 = 0 := by rw [Nat.pow_succ, Nat.mul_mod_left]
    rw [← div_lt_iff₀ hqMax, hm.lt_iff_of_even heven]
    simp
  · have hover : (2 ^ (F.fracBits + 1) - 1 / 2) * 2 ^ F.qMax ≤ a := by
      calc
        (2 ^ (F.fracBits + 1) - 1 / 2) * 2 ^ F.qMax ≤ 2 ^ (F.fracBits + 1) * 2 ^ F.qMax :=
          mul_le_mul_of_nonneg_right (by linarith) hqMax.le
        _ ≤ 2 ^ F.fracBits * 2 ^ q := two_pow_mul_two_zpow_le (by omega)
        _ ≤ a := hq.le_of_lt (hmax.trans_lt hgt)
    exact iff_of_false hover.not_gt (by omega)

end

/-! ### Rounding, with the sign -/

theorem roundsTo_inf (neg : Bool) (ha : 0 < a) (hover : F.overflowAt ≤ a) :
    F.RoundsTo (signFactor neg * a) (.inf neg) := by
  rw [RoundsTo, abs_mul, abs_signFactor, one_mul, abs_of_pos ha, signFactor_mul_neg_iff ha]
  exact ⟨hover, Iff.rfl⟩

/-- A datum is the rounding of a signed number when `m` quanta `2 ^ q` of its magnitude are, and it is even if `m` is. -/
theorem IsQuantum.roundsTo_fin (hq : F.IsQuantum a q) (hm : NearestEven m (a / 2 ^ q)) (neg : Bool) (ha : 0 < a)
    (hover : a < F.overflowAt) (hrep : F.Represents n e) (hval : (n : ℚ) * 2 ^ e = m * 2 ^ q)
    (heven : m % 2 = 0 → n % 2 = 0) : F.RoundsTo (signFactor neg * a) (.fin neg n e) := by
  rw [RoundsTo, abs_mul, abs_signFactor, one_mul, abs_of_pos ha, signFactor_mul_neg_iff ha]
  refine ⟨hover, hrep, fun _ => Iff.rfl, fun s' m' e' hrep' => ?_⟩
  have hsigned : (FloatVal.fin neg n e).toRat = signFactor neg * (m * 2 ^ q) := by rw [FloatVal.toRat_fin, hval]
  have hother : (FloatVal.fin s' m' e').toRat = signFactor neg * (FloatVal.fin (s' ^^ neg) m' e').toRat := by
    rw [← FloatVal.toRat_fin_xor, Bool.xor_assoc, Bool.xor_self, Bool.xor_false]
  obtain ⟨hle, htie⟩ := hq.nearest hm hrep' (s' ^^ neg)
  rw [hsigned, hother, ← mul_sub, ← mul_sub, abs_mul, abs_mul, abs_signFactor, one_mul, one_mul]
  exact ⟨hle, fun heq hne => heven (htie heq fun hsame => hne (by rw [hsame]))⟩

theorem represents_zero : F.Represents 0 F.qMin := .inl ⟨rfl, Nat.two_pow_pos _⟩

theorem overflowAt_pos : 0 < F.overflowAt := by
  have hone : (1 : ℚ) ≤ 2 ^ (F.fracBits + 1) := one_le_pow₀ one_le_two
  exact mul_pos (by linarith) (zpow_pos two_pos _)

theorem roundsTo_zero (neg : Bool) : F.RoundsTo 0 (.fin neg 0 F.qMin) := by
  have hzero : (FloatVal.fin neg 0 F.qMin).toRat = 0 := by simp [FloatVal.toRat_fin]
  rw [RoundsTo, abs_zero, hzero, sub_zero, abs_zero]
  exact ⟨overflowAt_pos, represents_zero, fun h => absurd rfl h, fun _ _ _ _ => ⟨abs_nonneg _, fun _ _ => rfl⟩⟩

/-- The fraction `round` takes to an integer is the number counted in quanta. -/
theorem nearestEven_scaled (num : ℕ) (hden : den ≠ 0) (e q : ℤ) :
    NearestEven (divNearestEven (num * 2 ^ (e - q).toNat) (den * 2 ^ (q - e).toNat)) (num / den * 2 ^ e / 2 ^ q) := by
  have hscale : (num : ℚ) / den * 2 ^ e / 2 ^ q = (num * 2 ^ (e - q).toNat : ℕ) / (den * 2 ^ (q - e).toNat : ℕ) := by
    rw [mul_div_assoc, ← zpow_sub₀ two_ne_zero, two_zpow_eq_toNat_div, neg_sub, div_mul_div_comm]
    push_cast
    rfl
  rw [hscale]
  exact divNearestEven_spec _ (by positivity)

/-- R111: the model's `round` rounds the fraction it is given, once. -/
theorem round_roundsTo (hmax : F.qMin ≤ F.qMax) (hfrac : 0 < F.fracBits) (neg : Bool) (num : ℕ) (hden : den ≠ 0) (e : ℤ) :
    F.RoundsTo (signFactor neg * (num / den * 2 ^ e)) (F.round neg num den e) := by
  obtain rfl | hnum := eq_or_ne num 0
  · simpa [round] using roundsTo_zero neg
  have ha : (0 : ℚ) < num / den * 2 ^ e := by positivity
  have hq := F.isQuantum_floorLog2 hnum hden e
  have hm := nearestEven_scaled num hden e (max F.qMin (floorLog2 num den + e - F.fracBits))
  rw [round, if_neg hnum]
  dsimp only
  generalize max F.qMin (floorLog2 num den + e - F.fracBits) = q at hq hm ⊢
  generalize divNearestEven (num * 2 ^ (e - q).toNat) (den * 2 ^ (q - e).toNat) = m at hm ⊢
  have hfinite := hq.lt_overflowAt_iff hm hmax
  have hle := hq.le_two_pow hm
  split_ifs with hcarry hover hover
  · exact roundsTo_inf neg ha (not_lt.mp (by rw [hfinite]; omega))
  · refine hq.roundsTo_fin hm neg ha (hfinite.mpr (by omega)) ?represents ?value fun _ => ?even
    case represents =>
      exact .inr ⟨hq.qMin_le.trans (le_add_of_nonneg_right one_pos.le), by omega, le_rfl, Nat.pow_lt_pow_succ one_lt_two⟩
    case value =>
      rw [hcarry, zpow_add_one₀ two_ne_zero]
      push_cast
      ring
    case even => exact Nat.mod_eq_zero_of_dvd (dvd_pow_self 2 hfrac.ne')
  · exact roundsTo_inf neg ha (not_lt.mp (by rw [hfinite]; omega))
  · exact hq.roundsTo_fin hm neg ha (hfinite.mpr (by omega)) (hq.represents hm (by omega) (by omega)) rfl id

end Format

end Sys2Proof.Machine

namespace Sys2Proof.Machine.Format

variable {w : Nat} {F : Format w} {neg s t : Bool} {m n num den : ℕ} {e f q k : ℤ} {x : ℚ} {v : FloatVal}

/-- What the refinement stage needs of a format: its layout (R15), a fraction bit and a normal binade, and R12's two
constants. -/
structure Refinable {w : Nat} (F : Format w) : Prop extends F.WellLaidOut where
  fracBits_pos : 0 < F.fracBits
  qMin_le_qMax : F.qMin ≤ F.qMax
  half_value : F.value F.half = .fin false (2 ^ F.fracBits) (-(F.fracBits + 1))
  oneAndHalf_value : F.value F.oneAndHalf = .fin false (3 * 2 ^ (F.fracBits - 1)) (-F.fracBits)

theorem binary32_refinable : binary32.Refinable :=
  ⟨binary32_wellLaidOut, by decide, by decide, by decide, by decide⟩
theorem binary64_refinable : binary64.Refinable :=
  ⟨binary64_wellLaidOut, by decide, by decide, by decide, by decide⟩

/-! ### The special values (R113) -/

/-- Rounding keeps the sign it is given. -/
theorem round_sign (F : Format w) (neg : Bool) (num den : ℕ) (e : ℤ) :
    F.round neg num den e = .inf neg ∨ ∃ k q, F.round neg num den e = .fin neg k q := by
  unfold round
  dsimp only
  split_ifs <;> simp

theorem fmul_fin_fin (F : Format w) (s t : Bool) (m n : ℕ) (e f : ℤ) :
    F.fmul (.fin s m e) (.fin t n f) = F.round (s ^^ t) (m * n) 1 (e + f) := rfl

theorem fdiv_fin_fin (F : Format w) (s t : Bool) (m : ℕ) (e f : ℤ) (hn : n ≠ 0) :
    F.fdiv (.fin s m e) (.fin t n f) = F.round (s ^^ t) m n (e - f) := if_neg hn

@[simp] theorem fmul_inf_inf (F : Format w) (s t : Bool) : F.fmul (.inf s) (.inf t) = .inf (s ^^ t) := rfl
@[simp] theorem fmul_zero_inf (F : Format w) (s t : Bool) (e : ℤ) : F.fmul (.fin s 0 e) (.inf t) = .nan := rfl
@[simp] theorem fmul_inf_zero (F : Format w) (s t : Bool) (e : ℤ) : F.fmul (.inf t) (.fin s 0 e) = .nan := rfl
@[simp] theorem fmul_fin_inf (F : Format w) (s t : Bool) (e : ℤ) (hm : m ≠ 0) :
    F.fmul (.fin s m e) (.inf t) = .inf (s ^^ t) := if_neg hm
@[simp] theorem fmul_inf_fin (F : Format w) (s t : Bool) (e : ℤ) (hm : m ≠ 0) :
    F.fmul (.inf s) (.fin t m e) = .inf (s ^^ t) := if_neg hm
@[simp] theorem fmul_fin_zero (F : Format w) (s t : Bool) (m : ℕ) (e f : ℤ) :
    F.fmul (.fin s m e) (.fin t 0 f) = .fin (s ^^ t) 0 F.qMin := rfl
@[simp] theorem fmul_zero_fin (F : Format w) (s t : Bool) (n : ℕ) (e f : ℤ) :
    F.fmul (.fin s 0 e) (.fin t n f) = .fin (s ^^ t) 0 F.qMin := by rw [fmul_fin_fin, Nat.zero_mul, round, if_pos rfl]

@[simp] theorem fdiv_inf_inf (F : Format w) (s t : Bool) : F.fdiv (.inf s) (.inf t) = .nan := rfl
@[simp] theorem fdiv_zero_zero (F : Format w) (s t : Bool) (e f : ℤ) : F.fdiv (.fin s 0 e) (.fin t 0 f) = .nan := rfl
@[simp] theorem fdiv_fin_inf (F : Format w) (s t : Bool) (m : ℕ) (e : ℤ) :
    F.fdiv (.fin s m e) (.inf t) = .fin (s ^^ t) 0 F.qMin := rfl
@[simp] theorem fdiv_inf_fin (F : Format w) (s t : Bool) (n : ℕ) (f : ℤ) :
    F.fdiv (.inf s) (.fin t n f) = .inf (s ^^ t) := rfl
@[simp] theorem fdiv_fin_zero (F : Format w) (s t : Bool) (e f : ℤ) (hm : m ≠ 0) :
    F.fdiv (.fin s m e) (.fin t 0 f) = .inf (s ^^ t) := if_neg hm
@[simp] theorem fdiv_zero_fin (F : Format w) (s t : Bool) (e f : ℤ) (hn : n ≠ 0) :
    F.fdiv (.fin s 0 e) (.fin t n f) = .fin (s ^^ t) 0 F.qMin := fdiv_fin_fin F s t 0 e f hn

@[simp] theorem fadd_inf_fin (F : Format w) (s t : Bool) (n : ℕ) (f : ℤ) : F.fadd (.inf s) (.fin t n f) = .inf s := rfl
@[simp] theorem fadd_fin_inf (F : Format w) (s t : Bool) (m : ℕ) (e : ℤ) : F.fadd (.fin s m e) (.inf t) = .inf t := rfl
@[simp] theorem fadd_inf_self (F : Format w) (s : Bool) : F.fadd (.inf s) (.inf s) = .inf s := if_pos rfl
@[simp] theorem fadd_inf_not (F : Format w) (s : Bool) : F.fadd (.inf s) (.inf !s) = .nan := if_neg (by simp)
@[simp] theorem fadd_zero_zero (F : Format w) (s t : Bool) (e f : ℤ) :
    F.fadd (.fin s 0 e) (.fin t 0 f) = .fin (s && t) 0 F.qMin := by simp [fadd, signed]

@[simp] theorem negate_inf (s : Bool) : negate (.inf s) = .inf !s := rfl
@[simp] theorem negate_fin (s : Bool) (m : ℕ) (e : ℤ) : negate (.fin s m e) = .fin (!s) m e := rfl

theorem signed_not (s : Bool) (m : ℕ) : signed (!s) m = -signed s m := by cases s <;> simp [signed]

/-- A datum and its negation sum to `+0`. -/
theorem fadd_negate_self (F : Format w) (s : Bool) (m : ℕ) (e : ℤ) :
    F.fadd (.fin s m e) (.fin (!s) m e) = .fin false 0 F.qMin := by simp [fadd, signed_not]

theorem specialValues (F : Format w) : F.SpecialValues :=
  ⟨fun s => ⟨fadd_inf_not F s, fadd_inf_not F s⟩,
    fun s t e => ⟨fmul_zero_inf F s t e, fmul_inf_zero F s t e⟩,
    fun s t e f => fdiv_zero_zero F s t e f,
    fun s t => fdiv_inf_inf F s t,
    fun s _ e t f hm => fdiv_fin_zero F s t e f hm,
    fun s m e t => fdiv_fin_inf F s t m e,
    fun s t n f => fdiv_inf_fin F s t n f,
    fun s t => fmul_inf_inf F s t,
    fun s _ e t hm => ⟨fmul_fin_inf F s t e hm, by rw [fmul_inf_fin F t s e hm, Bool.xor_comm]⟩,
    fun s m e t n f => round_sign F (s ^^ t) (m * n) 1 (e + f),
    fun s m e t n f hn => by rw [fdiv_fin_fin F s t m e f hn]; exact round_sign F (s ^^ t) m n (e - f),
    fun s t n f => ⟨fadd_inf_fin F s t n f, fadd_fin_inf F t s n f⟩,
    fun s => fadd_inf_self F s,
    fun s e f => by rw [fadd_zero_zero, Bool.and_not_self],
    fun s e f => by rw [fadd_zero_zero, Bool.and_self],
    fun s m e _ => fadd_negate_self F s m e⟩

/-! ### The four operations round once (R111) -/

theorem toRat_negate (s : Bool) (m : ℕ) (e : ℤ) : (negate (.fin s m e)).toRat = -(FloatVal.fin s m e).toRat := by
  rw [negate_fin, ← Bool.xor_true, FloatVal.toRat_fin_xor]
  simp [signFactor]

theorem signFactor_mul_natAbs (z : ℤ) : signFactor (decide (z < 0)) * (z.natAbs : ℚ) = z := by
  obtain hneg | hpos := lt_or_ge z 0
  · rw [Nat.cast_natAbs, abs_of_neg hneg]
    simp [signFactor, hneg]
  · rw [Nat.cast_natAbs, abs_of_nonneg hpos]
    simp [signFactor, hpos.not_gt]

section
variable (hF : F.Refinable)
include hF

theorem Refinable.mulRounds : F.MulRounds := by
  intro s m e t n f
  have hround := round_roundsTo hF.qMin_le_qMax hF.fracBits_pos (s ^^ t) (m * n) one_ne_zero (e + f)
  have hproduct : (FloatVal.fin s m e).toRat * (FloatVal.fin t n f).toRat =
      signFactor (s ^^ t) * ((m * n : ℕ) / (1 : ℕ) * 2 ^ (e + f)) := by
    rw [FloatVal.toRat_fin, FloatVal.toRat_fin, signFactor_xor, zpow_add₀ two_ne_zero]
    push_cast
    ring
  rw [hproduct]
  exact hround

theorem Refinable.divRounds : F.DivRounds := by
  intro s m e t n f hn
  have hround := round_roundsTo hF.qMin_le_qMax hF.fracBits_pos (s ^^ t) m hn (e - f)
  have hquotient : (FloatVal.fin s m e).toRat / (FloatVal.fin t n f).toRat =
      signFactor (s ^^ t) * (m / n * 2 ^ (e - f)) := by
    have hsign : (signFactor t)⁻¹ = signFactor t := inv_eq_of_mul_eq_one_left (signFactor_mul_self t)
    rw [FloatVal.toRat_fin, FloatVal.toRat_fin, signFactor_xor, zpow_sub₀ two_ne_zero, mul_div_mul_comm, mul_div_mul_comm,
      div_eq_mul_inv (signFactor s), hsign]
  rw [hquotient, fdiv_fin_fin F s t m e f hn]
  exact hround

theorem Refinable.fadd_roundsTo (s : Bool) (m : ℕ) (e : ℤ) (t : Bool) (n : ℕ) (f : ℤ) :
    F.RoundsTo ((FloatVal.fin s m e).toRat + (FloatVal.fin t n f).toRat) (F.fadd (.fin s m e) (.fin t n f)) := by
  rw [FloatVal.toRat_fin_eq_signed_mul (min_le_left e f), FloatVal.toRat_fin_eq_signed_mul (min_le_right e f), ← add_mul,
    ← Int.cast_add, fadd]
  generalize signed s (m * 2 ^ (e - min e f).toNat) + signed t (n * 2 ^ (f - min e f).toNat) = sum
  split_ifs with hzero
  · rw [hzero, Int.cast_zero, zero_mul]
    exact roundsTo_zero _
  · have hround := round_roundsTo hF.qMin_le_qMax hF.fracBits_pos (decide (sum < 0)) sum.natAbs one_ne_zero (min e f)
    rwa [Nat.cast_one, div_one, ← mul_assoc, signFactor_mul_natAbs] at hround

theorem Refinable.addRounds : F.AddRounds := by
  intro s m e t n f
  refine ⟨hF.fadd_roundsTo s m e t n f, ?_⟩
  rw [sub_eq_add_neg, ← toRat_negate]
  exact hF.fadd_roundsTo s m e (!t) n f

end

end Sys2Proof.Machine.Format

namespace Sys2Proof.Proofs
open Sys2Proof.Machine

/-- Settles O37: the exact product is the fraction `round` is given. -/
theorem multiplicationRoundsOnce : Obligations.MultiplicationRoundsOnce :=
  ⟨Format.binary32_refinable.mulRounds, Format.binary64_refinable.mulRounds⟩

/-- Settles O38: the exact sum, counted in the smaller of the two quanta, is the integer `round` is given. -/
theorem additionRoundsOnce : Obligations.AdditionRoundsOnce :=
  ⟨Format.binary32_refinable.addRounds, Format.binary64_refinable.addRounds⟩

/-- Settles O39: the exact quotient is the fraction `round` is given. -/
theorem divisionRoundsOnce : Obligations.DivisionRoundsOnce :=
  ⟨Format.binary32_refinable.divRounds, Format.binary64_refinable.divRounds⟩

/-- Settles O40: no rule of R113 needs anything of the format. -/
theorem specialValueRules : Obligations.SpecialValueRules := ⟨binary32.specialValues, binary64.specialValues⟩

end Sys2Proof.Proofs
end

section
/-! PROOF. The Newton-Raphson steps (41_refine.md R115 to R119): the halving and where it is exact, the corner cases of both
steps, and their NaN results. -/

namespace Sys2Proof.Machine.Format

variable {w : Nat} {F : Format w} {neg s t : Bool} {m n : ℕ} {e f k q : ℤ} {x : ℚ} {v : FloatVal} {y g : BitVec w}

/-! ### The finite data of a format -/

/-- R15: the finite value of an encoding is a datum of the format. -/
theorem represents_of_value {b : BitVec w} (h : F.value b = .fin s m e) : F.Represents m e := by
  have hexp := expField_lt (F := F) b
  have hfrac := fracField_lt (F := F) b
  have hpow : 2 ^ (F.fracBits + 1) = 2 * 2 ^ F.fracBits := pow_succ' 2 _
  rw [value, datum] at h
  split_ifs at h with hones hzero hsub
  · cases h
  · cases h
  · cases h
    exact .inl ⟨rfl, hfrac⟩
  · cases h
    rw [expOnes] at hones
    exact .inr ⟨by omega, by rw [qMax, expOnes]; omega, by omega, by omega⟩

theorem exists_fin_of_isFinite (h : v.isFinite) : ∃ s m e, v = .fin s m e := by
  cases v with
  | fin s m e => exact ⟨s, m, e, rfl⟩
  | nan => exact h.elim
  | inf s => exact h.elim

theorem Represents.abs_toRat_lt_overflowAt (h : F.Represents m e) (hmax : F.qMin ≤ F.qMax) (s : Bool) :
    |(FloatVal.fin s m e).toRat| < F.overflowAt := by
  have he : e ≤ F.qMax := by
    obtain ⟨rfl, -⟩ | ⟨-, he, -⟩ := h
    · exact hmax
    · exact he
  have hm : (m : ℚ) + 1 ≤ 2 ^ (F.fracBits + 1) := by exact_mod_cast h.lt_two_pow
  rw [FloatVal.abs_toRat_fin, overflowAt]
  calc
    (m : ℚ) * 2 ^ e ≤ m * 2 ^ F.qMax := mul_le_mul_of_nonneg_left (zpow_le_zpow_right₀ one_le_two he) m.cast_nonneg
    _ < (2 ^ (F.fracBits + 1) - 1 / 2) * 2 ^ F.qMax := mul_lt_mul_of_pos_right (by linarith) (zpow_pos two_pos _)

/-- Of two data with one magnitude neither has the smaller quantum, or the larger quantum's significand would be too
short. -/
theorem Represents.exponent_le (h : F.Represents m e) (h' : F.Represents n f) (heq : (m : ℚ) * 2 ^ e = n * 2 ^ f) :
    f ≤ e := by
  by_contra hlt
  obtain ⟨hf, -⟩ | ⟨-, -, hn, -⟩ := h'
  · have hmin := h.qMin_le
    omega
  · have hm : (m : ℚ) < 2 ^ (F.fracBits + 1) := by exact_mod_cast h.lt_two_pow
    have hn' : (2 : ℚ) ^ F.fracBits ≤ n := by exact_mod_cast hn
    refine heq.not_lt ?_
    calc
      (m : ℚ) * 2 ^ e < 2 ^ (F.fracBits + 1) * 2 ^ e := mul_lt_mul_of_pos_right hm (zpow_pos two_pos e)
      _ ≤ 2 ^ F.fracBits * 2 ^ f := two_pow_mul_two_zpow_le (by omega)
      _ ≤ n * 2 ^ f := mul_le_mul_of_nonneg_right hn' (zpow_pos two_pos f).le

theorem Represents.unique (h : F.Represents m e) (h' : F.Represents n f) (heq : (m : ℚ) * 2 ^ e = n * 2 ^ f) :
    m = n ∧ e = f := by
  obtain rfl : e = f := le_antisymm (h'.exponent_le h heq.symm) (h.exponent_le h' heq)
  exact ⟨by exact_mod_cast mul_right_cancel₀ (zpow_pos two_pos e).ne' heq, rfl⟩

/-! ### What a rounding is (R111) -/

/-- A finite rounding is a datum of the format. -/
theorem RoundsTo.represents (h : F.RoundsTo x (.fin neg m e)) : F.Represents m e := by
  obtain ⟨-, hrep, -⟩ := h
  exact hrep

theorem RoundsTo.ne_nan (h : F.RoundsTo x v) : v ≠ .nan := by rintro rfl; exact h

theorem RoundsTo.ne_inf (h : F.RoundsTo x v) (hx : |x| < F.overflowAt) (neg : Bool) : v ≠ .inf neg := by
  rintro rfl
  obtain ⟨hover, -⟩ := h
  exact hx.not_ge hover

/-- A number below the overflow bound rounds to a datum. -/
theorem RoundsTo.exists_fin (h : F.RoundsTo x v) (hx : |x| < F.overflowAt) :
    ∃ neg m e, v = .fin neg m e ∧ F.Represents m e := by
  cases v with
  | nan => exact absurd rfl h.ne_nan
  | inf neg => exact absurd rfl (h.ne_inf hx neg)
  | fin neg m e => exact ⟨neg, m, e, rfl, h.represents⟩

/-- A nonzero datum rounds to itself. -/
theorem RoundsTo.eq_of_represents (hround : F.RoundsTo (FloatVal.fin neg m e).toRat v) (hmax : F.qMin ≤ F.qMax)
    (h : F.Represents m e) (hm : m ≠ 0) : v = .fin neg m e := by
  obtain ⟨s, n, f, rfl, hrep⟩ := hround.exists_fin (h.abs_toRat_lt_overflowAt hmax neg)
  obtain ⟨-, -, hsign, hnear⟩ := hround
  obtain ⟨hle, -⟩ := hnear neg m e h
  have hsame : (FloatVal.fin s n f).toRat = (FloatVal.fin neg m e).toRat := by
    rwa [sub_self, abs_zero, abs_nonpos_iff, sub_eq_zero] at hle
  have hmag : (n : ℚ) * 2 ^ f = m * 2 ^ e := by rw [← FloatVal.abs_toRat_fin s, hsame, FloatVal.abs_toRat_fin]
  obtain ⟨rfl, rfl⟩ := hrep.unique h hmag
  have hpos : (0 : ℚ) < n * 2 ^ f := by positivity
  have hnonzero : (FloatVal.fin neg n f).toRat ≠ 0 := by
    rw [← abs_pos, FloatVal.abs_toRat_fin]
    exact hpos
  obtain rfl : s = neg := by
    rw [Bool.eq_iff_iff, hsign hnonzero, FloatVal.toRat_fin, signFactor_mul_neg_iff hpos]
  rfl

/-- A number of at least the least positive datum does not round to zero. -/
theorem RoundsTo.ne_zero (h : F.RoundsTo (FloatVal.fin neg m e).toRat (.fin s n f)) (hfrac : 0 < F.fracBits)
    (hleast : (2 : ℚ) ^ F.qMin ≤ m * 2 ^ e) : n ≠ 0 := by
  rintro rfl
  obtain ⟨-, -, -, hnear⟩ := h
  have hone : F.Represents 1 F.qMin := .inl ⟨rfl, Nat.one_lt_two_pow hfrac.ne'⟩
  obtain ⟨hle, -⟩ := hnear neg 1 F.qMin hone
  have hzero : (FloatVal.fin s 0 f).toRat = 0 := by simp [FloatVal.toRat_fin]
  rw [hzero, zero_sub, abs_neg, FloatVal.abs_toRat_fin, FloatVal.toRat_fin, FloatVal.toRat_fin, ← mul_sub, abs_mul,
    abs_signFactor, one_mul, Nat.cast_one, one_mul, abs_sub_comm, abs_of_nonneg (sub_nonneg.mpr hleast)] at hle
  linarith [zpow_pos (two_pos (α := ℚ)) F.qMin]

/-! ### The products and sums the steps meet -/

section
variable (hF : F.Refinable)
include hF

/-- Half a datum is the datum one exponent down, rounded. -/
theorem Refinable.half_mul_roundsTo (s : Bool) (m : ℕ) (e : ℤ) :
    F.RoundsTo (FloatVal.fin s m (e - 1)).toRat (F.fmul (F.value F.half) (.fin s m e)) := by
  have hround := hF.mulRounds false (2 ^ F.fracBits) (-(F.fracBits + 1)) s m e
  rw [← hF.half_value] at hround
  have hhalf : (FloatVal.fin false (2 ^ F.fracBits) (-(F.fracBits + 1))).toRat = 1 / 2 := by
    rw [FloatVal.toRat_fin, Nat.cast_pow, Nat.cast_two, two_pow_mul_two_zpow]
    norm_num [signFactor]
  have hexact : (F.value F.half).toRat * (FloatVal.fin s m e).toRat = (FloatVal.fin s m (e - 1)).toRat := by
    rw [hF.half_value, hhalf, FloatVal.toRat_fin, FloatVal.toRat_fin, zpow_sub_one₀ two_ne_zero]
    ring
  rwa [hexact] at hround

/-- Half a datum is finite and keeps its sign, and is nonzero from twice the least magnitude on (log 14). -/
theorem Refinable.half_mul_fin (h : F.Represents m e) (s : Bool) :
    ∃ k q, F.fmul (F.value F.half) (.fin s m e) = .fin s k q ∧ F.Represents k q ∧ (2 ≤ m → k ≠ 0) := by
  have hround := hF.half_mul_roundsTo s m e
  have hsmall : |(FloatVal.fin s m (e - 1)).toRat| < F.overflowAt := by
    refine lt_of_le_of_lt ?_ (h.abs_toRat_lt_overflowAt hF.qMin_le_qMax s)
    rw [FloatVal.abs_toRat_fin, FloatVal.abs_toRat_fin]
    exact mul_le_mul_of_nonneg_left (zpow_le_zpow_right₀ one_le_two (by omega)) m.cast_nonneg
  have hsign : F.fmul (F.value F.half) (.fin s m e) = .inf s ∨
      ∃ k q, F.fmul (F.value F.half) (.fin s m e) = .fin s k q := by
    rw [hF.half_value, fmul_fin_fin, Bool.false_xor]
    exact round_sign F s _ _ _
  obtain hinf | ⟨k, q, hfin⟩ := hsign
  · exact absurd hinf (hround.ne_inf hsmall s)
  · rw [hfin] at hround
    refine ⟨k, q, hfin, hround.represents, fun hm => hround.ne_zero hF.fracBits_pos ?_⟩
    have hm' : (2 : ℚ) ≤ m := by exact_mod_cast hm
    calc
      (2 : ℚ) ^ F.qMin ≤ 2 ^ e := zpow_le_zpow_right₀ one_le_two h.qMin_le
      _ = 2 * 2 ^ (e - 1) := by rw [zpow_sub_one₀ two_ne_zero]; ring
      _ ≤ m * 2 ^ (e - 1) := mul_le_mul_of_nonneg_right hm' (zpow_pos two_pos _).le

theorem Refinable.half_mul_zero (s : Bool) (e : ℤ) : F.fmul (F.value F.half) (.fin s 0 e) = .fin s 0 F.qMin := by
  rw [hF.half_value, fmul_fin_zero, Bool.false_xor]

theorem Refinable.half_mul_inf (s : Bool) : F.fmul (F.value F.half) (.inf s) = .inf s := by
  rw [hF.half_value, fmul_fin_inf F false s _ (by positivity), Bool.false_xor]

/-- A zero of either sign adds nothing to a nonzero datum. -/
theorem Refinable.fadd_zero (h : F.Represents m e) (hm : m ≠ 0) (s t : Bool) (f : ℤ) :
    F.fadd (.fin s m e) (.fin t 0 f) = .fin s m e := by
  have hround := hF.fadd_roundsTo s m e t 0 f
  have hzero : (FloatVal.fin t 0 f).toRat = 0 := by simp [FloatVal.toRat_fin]
  rw [hzero, add_zero] at hround
  exact hround.eq_of_represents hF.qMin_le_qMax h hm

theorem Refinable.oneAndHalf_sub_zero (t : Bool) (f : ℤ) :
    F.fsub (F.value F.oneAndHalf) (.fin t 0 f) = F.value F.oneAndHalf := by
  have hrep := represents_of_value hF.oneAndHalf_value
  rw [hF.oneAndHalf_value]
  exact hF.fadd_zero hrep (by positivity) false (!t) f

theorem Refinable.zero_mul_oneAndHalf (s : Bool) (e : ℤ) :
    F.fmul (.fin s 0 e) (F.value F.oneAndHalf) = .fin s 0 F.qMin := by
  rw [hF.oneAndHalf_value, fmul_zero_fin, Bool.xor_false]

theorem Refinable.oneAndHalf_sub_inf (t : Bool) : F.fsub (F.value F.oneAndHalf) (.inf t) = .inf !t := by
  rw [hF.oneAndHalf_value, fsub, negate_inf, fadd_fin_inf]

/-! ### The corner cases of the steps (R116, R117) -/

theorem Refinable.invStepCorners : F.InvStepCorners := by
  intro y g
  refine ⟨?infOperand, ?zeroEstimate, ?infEstimate, ?zeroOperand, ?zeroTimesInf, ?nanOperand⟩
  case infOperand =>
    rintro hy ⟨m, e, hm, hg⟩
    simp [invStep, hy, hg, hF.half_mul_inf, hF.oneAndHalf_sub_inf, hm]
  case zeroEstimate =>
    intro s e hg hfinite
    obtain ⟨t, n, f, hy⟩ := exists_fin_of_isFinite hfinite
    obtain ⟨k, q, hhalf, -⟩ := hF.half_mul_fin (represents_of_value hy) t
    simp [invStep, hy, hg, hhalf, hF.oneAndHalf_sub_zero, hF.zero_mul_oneAndHalf]
  case infEstimate =>
    rintro hg (⟨m, e, hm, hy⟩ | hy)
    · obtain ⟨k, q, hhalf, -, hk⟩ := hF.half_mul_fin (represents_of_value hy) true
      simp [invStep, hy, hg, hhalf, hk hm, hF.oneAndHalf_sub_inf]
    · simp [invStep, hy, hg, hF.half_mul_inf, hF.oneAndHalf_sub_inf]
  case zeroOperand =>
    intro s e hy hfinite
    obtain ⟨t, n, f, hg⟩ := exists_fin_of_isFinite hfinite
    simp [invStep, hy, hg, hF.half_mul_zero, hF.oneAndHalf_sub_zero]
  case zeroTimesInf =>
    intro s e t hy hg
    simp [invStep, hy, hg, hF.half_mul_zero]
  case nanOperand =>
    intro hy
    simp [invStep, hy]

theorem Refinable.sqrtStepCorners : F.SqrtStepCorners := by
  intro y g
  refine ⟨?zeroEstimate, ?infOperand, ?zeroOperand, ?infEstimate, ?nanOperand⟩
  case zeroEstimate =>
    rintro e hg ⟨m, f, hm, hy⟩
    obtain ⟨k, q, hhalf, -, hk⟩ := hF.half_mul_fin (represents_of_value hy) true
    simp [sqrtStep, hy, hg, hhalf, hk hm, hF.half_mul_zero]
  case infOperand =>
    rintro s hy ⟨m, e, -, hg⟩
    obtain ⟨k, q, hhalf, -⟩ := hF.half_mul_fin (represents_of_value hg) false
    simp [sqrtStep, hy, hg, hhalf, hF.half_mul_inf]
  case zeroOperand =>
    rintro s e hy ⟨t, m, f, hm, hg⟩
    obtain ⟨k, q, hhalf, hrep, hk⟩ := hF.half_mul_fin (represents_of_value hg) t
    have hm0 : m ≠ 0 := by omega
    simp [sqrtStep, hy, hg, hhalf, hF.half_mul_zero, hm0, hF.fadd_zero hrep (hk hm)]
  case infEstimate =>
    intro s hg hfinite
    obtain ⟨t, n, f, hy⟩ := exists_fin_of_isFinite hfinite
    obtain ⟨k, q, hhalf, -⟩ := hF.half_mul_fin (represents_of_value hy) t
    simp [sqrtStep, hy, hg, hhalf, hF.half_mul_inf]
  case nanOperand =>
    intro hy
    simp [sqrtStep, hy]

end

/-! ### Exact halving (R119) -/

/-- Counting the exponent field up adds one unit of it to the encoding. -/
theorem pack_succ (F : Format w) (neg : Bool) (e f : ℕ) :
    F.pack neg (e + 1) f = F.pack neg e f + BitVec.ofNat w (2 ^ F.fracBits) := by
  rw [pack, pack, ← BitVec.ofNat_add]
  congr 1
  ring

theorem Refinable.halvesExactly (hF : F.Refinable) : F.HalvesExactly := by
  intro v hlow hhigh
  have hvalue : F.value v = .fin v.msb (2 ^ F.fracBits + F.fracField v) (F.qMin + ((F.expField v : ℤ) - 1)) := by
    rw [value, datum_of_normal hhigh.ne (by omega), Datum.value_fin]
  obtain ⟨e, he⟩ : ∃ e, F.expField v = e + 1 := ⟨F.expField v - 1, by omega⟩
  have hexp : F.qMin + ((F.expField v : ℤ) - 1) - 1 = F.qMin + ((e : ℤ) - 1) := by omega
  have hhalf : F.Represents (2 ^ F.fracBits + F.fracField v) (F.qMin + ((e : ℤ) - 1)) := by
    have hfrac := fracField_lt (F := F) v
    exact .inr ⟨by omega, by rw [qMax]; omega, by omega, by rw [Nat.pow_succ]; omega⟩
  have hround := hF.half_mul_roundsTo v.msb (2 ^ F.fracBits + F.fracField v) (F.qMin + ((F.expField v : ℤ) - 1))
  rw [hexp] at hround
  have hpack := hF.pack_fields v
  rw [he, pack_succ] at hpack
  rw [hvalue, hround.eq_of_represents hF.qMin_le_qMax hhalf (by positivity), encode_fin, enc_normal (by omega),
    eq_sub_of_add_eq hpack]

/-! ### NaN results (R115) -/

theorem or_expOnes (he : n < 2 ^ F.expBits) : n ||| F.expOnes = F.expOnes := by
  apply Nat.eq_of_testBit_eq
  intro i
  rw [Nat.testBit_or, expOnes, Nat.testBit_two_pow_sub_one]
  by_cases hi : i < F.expBits
  · simp [hi]
  · simp [hi, Nat.testBit_lt_two_pow (he.trans_le (Nat.pow_le_pow_right two_pos (not_lt.mp hi)))]

/-- The all-ones exponent field and a fraction bit are set where they are missing, so the bits are those of a NaN. -/
theorem Refinable.isNaN_forceNaN (hF : F.Refinable) (b : BitVec w) : isNaN F (forceNaN F b) = true := by
  have hfrac : 2 ^ (F.fracBits - 1) < 2 ^ F.fracBits := Nat.pow_lt_pow_right one_lt_two (Nat.sub_one_lt hF.fracBits_pos.ne')
  rw [forceNaN]
  split_ifs with hnan
  · exact hnan
  · have hexp : F.expField (b ||| F.pack false F.expOnes (2 ^ (F.fracBits - 1))) = F.expOnes := by
      rw [expField, BitVec.toNat_or, Nat.or_div_two_pow, Nat.or_mod_two_pow]
      exact (congrArg _ (hF.expField_pack expOnes_lt hfrac)).trans (or_expOnes (expField_lt b))
    have hfracField : F.fracField (b ||| F.pack false F.expOnes (2 ^ (F.fracBits - 1))) ≠ 0 := by
      rw [fracField, BitVec.toNat_or, Nat.or_mod_two_pow, Ne, Nat.or_eq_zero_iff]
      have hset := hF.fracField_pack (neg := false) expOnes_lt hfrac
      rw [fracField] at hset
      rw [hset]
      simp
    simp [isNaN, hexp, hfracField]

/-- A result an operation can give: a finite one is a datum of the format. -/
def IsResult (F : Format w) : FloatVal → Prop
  | .fin _ m e => F.Represents m e
  | .nan | .inf _ => True

theorem RoundsTo.isResult (h : F.RoundsTo x v) : F.IsResult v := by
  cases v with
  | nan => trivial
  | inf neg => trivial
  | fin neg m e => exact h.represents

section
variable (hF : F.Refinable)
include hF

theorem Refinable.fmul_isResult (a b : FloatVal) : F.IsResult (F.fmul a b) := by
  cases a with
  | nan => trivial
  | inf s =>
    cases b with
    | nan => trivial
    | inf t => trivial
    | fin t n f =>
      rw [fmul]
      split_ifs <;> trivial
  | fin s m e =>
    cases b with
    | nan => trivial
    | inf t =>
      rw [fmul]
      split_ifs <;> trivial
    | fin t n f => exact (hF.mulRounds s m e t n f).isResult

theorem Refinable.fadd_isResult (a b : FloatVal) : F.IsResult (F.fadd a b) := by
  cases a with
  | nan => trivial
  | inf s =>
    cases b with
    | nan => trivial
    | inf t =>
      rw [fadd]
      split_ifs <;> trivial
    | fin t n f => trivial
  | fin s m e =>
    cases b with
    | nan => trivial
    | inf t => trivial
    | fin t n f => exact (hF.fadd_roundsTo s m e t n f).isResult

/-- A step's output is a NaN exactly when its result is. -/
theorem Refinable.isNaN_stepResult_iff {c : BitVec w} (hc : isNaN F c = true) (hv : F.IsResult v) :
    isNaN F (stepResult F c v) = true ↔ v = .nan := by
  cases v with
  | nan => simp [hc]
  | inf s =>
    rw [stepResult_of_encode (encode_inf F s), isNaN_iff_value_eq_nan, value, hF.datum_enc_inf]
    simp
  | fin s m e =>
    rw [stepResult_of_encode (encode_fin F s m e), isNaN_iff_value_eq_nan, value, hF.datum_enc_fin hv]
    simp

end

theorem invStep_nan (h : isNaN F y = true ∨ isNaN F g = true) : invStep F y g = .nan := by
  rw [isNaN_iff_value_eq_nan, isNaN_iff_value_eq_nan] at h
  obtain h | h := h <;> simp [invStep, h]

theorem sqrtStep_nan (h : isNaN F y = true ∨ isNaN F g = true) : sqrtStep F y g = .nan := by
  rw [isNaN_iff_value_eq_nan, isNaN_iff_value_eq_nan] at h
  obtain h | h := h <;> simp [sqrtStep, h]

/-- R115 of a step whose result is `step y g` and whose NaN is `nan y g`. -/
theorem Refinable.step_nan_rule (hF : F.Refinable) {step : BitVec w → BitVec w → FloatVal}
    {nan : BitVec w → BitVec w → BitVec w} (hnan : ∀ y g, isNaN F (nan y g) = true)
    (hresult : ∀ y g, F.IsResult (step y g))
    (hoperand : ∀ {y g}, isNaN F y = true ∨ isNaN F g = true → step y g = .nan) (y g : BitVec w) :
    isNaN F (nan y g) = true ∧
    (step y g = .nan → stepResult F (nan y g) (step y g) = nan y g) ∧
    (isNaN F (stepResult F (nan y g) (step y g)) = true ↔ step y g = .nan) ∧
    ((isNaN F y = true ∨ isNaN F g = true) → step y g = .nan) ∧
    (step y g = .nan →
      stepResult F (nan y (stepResult F (nan y g) (step y g))) (step y (stepResult F (nan y g) (step y g))) =
        nan y (nan y g)) := by
  refine ⟨hnan y g, fun h => ?_, hF.isNaN_stepResult_iff (hnan y g) (hresult y g), hoperand, fun h => ?_⟩
  · rw [h, stepResult_nan]
  · rw [h, stepResult_nan, hoperand (.inr (hnan y g)), stepResult_nan]

end Sys2Proof.Machine.Format

namespace Sys2Proof.Machine

/-! ### Two steps (R118) -/

@[simp] theorem operand32_result32 (g : Bits32) : operand32 (result32 g) = g := by
  rw [operand32, result32, BitVec.extractLsb'_setWidth_of_le (by decide), BitVec.extractLsb'_eq_self]

/-- R118: the second step takes the same operand and the first one's output. -/
theorem approx32_two (rom : ConstantRom) (dir : Dir) (Y : Bits64) :
    approx32 rom dir 2 Y = result32 (refine32 dir (operand32 Y) (operand32 (approx32 rom dir 1 Y))) := by
  have hone : approx32 rom dir 1 Y = result32 (refine32 dir (operand32 Y) (seed32 rom dir (operand32 Y))) :=
    approx_p32_one rom dir Y
  rw [hone, operand32_result32]
  exact approx_p32_two rom dir Y

end Sys2Proof.Machine

namespace Sys2Proof.Proofs
open Sys2Proof.Machine

/-- Settles O33: an infinity, a zero and a NaN go through the formula by the special-value rules; half a datum is finite, and
1.5 less a zero is 1.5. -/
theorem inverseStepCornerCases : Obligations.InverseStepCornerCases :=
  ⟨Format.binary32_refinable.invStepCorners, Format.binary64_refinable.invStepCorners⟩

/-- Settles O34: as for the inverse step; a half that is not zero stays as it is when a zero is added. -/
theorem sqrtStepCornerCases : Obligations.SqrtStepCornerCases :=
  ⟨Format.binary32_refinable.sqrtStepCorners, Format.binary64_refinable.sqrtStepCorners⟩

/-- Settles O35: both steps end in an operation whose finite results are data of the format, and no datum is encoded as a
NaN. -/
theorem refinementNaNResults : Obligations.RefinementNaNResults := by
  have h32 := Format.binary32_refinable
  have h64 := Format.binary64_refinable
  constructor
  · intro dir y g
    have hnan (y g : Bits32) := h32.isNaN_forceNaN (Config.nanChoice32 dir y g)
    cases dir with
    | inv => exact h32.step_nan_rule hnan (fun _ _ => h32.fmul_isResult _ _) Format.invStep_nan y g
    | sqrt => exact h32.step_nan_rule hnan (fun _ _ => h32.fadd_isResult _ _) Format.sqrtStep_nan y g
  · intro dir y g
    have hnan (y g : Bits64) := h64.isNaN_forceNaN (Config.nanChoice64 dir y g)
    cases dir with
    | inv => exact h64.step_nan_rule hnan (fun _ _ => h64.fmul_isResult _ _) Format.invStep_nan y g
    | sqrt => exact h64.step_nan_rule hnan (fun _ _ => h64.fadd_isResult _ _) Format.sqrtStep_nan y g

/-- Settles O41: the exact half is a datum, and a datum rounds to itself. -/
theorem halvingIsExact : Obligations.HalvingIsExact :=
  ⟨Format.binary32_refinable.halvesExactly, Format.binary64_refinable.halvesExactly⟩

/-- Settles O32: the model's steps name the intermediate results of the two formulas. -/
theorem refinementFormulas : Obligations.RefinementFormulas := ⟨fun _ _ => ⟨rfl, rfl⟩, fun _ _ => ⟨rfl, rfl⟩⟩

/-- Settles O36: the second step takes the first one's output, read back from the bus in single precision. -/
theorem secondStepTakesTheFirstOutput : Obligations.SecondStepTakesTheFirstOutput :=
  ⟨fun dir Y => ⟨approx32_two {} dir Y, approx_p64_two {} dir Y⟩, by decide +kernel, by decide +kernel⟩

end Sys2Proof.Proofs
end

section
/-! PROOF. Exceptions and their absence (60_exceptions.md): every step goes on (R140), a completion gives its request one
outcome (R142), the refusal mark (R141), and instances that share no state (R150). -/

namespace Sys2Proof.Machine

variable {s t : State} {q : Request} {i : Instr}

/-! ### The outcome of a request, by what it decodes to (R80, R142) -/

theorem outcomeOf_of_decodeOp_some {f : OpFields} (h : decodeOp q.op = some f) :
    outcomeOf q = .responded (approx {} f.dir f.prec f.nr q.y) := by
  rw [outcomeOf, h]

theorem outcomeOf_of_decode_ok (h : decode q = .ok i) :
    outcomeOf q = .responded (approx {} i.dir i.prec i.nr q.y) :=
  outcomeOf_of_decodeOp_some (decode_ok_fields h).1

theorem outcomeOf_of_decode_error {why : Reject} (h : decode q = .error why) : outcomeOf q = .refused why := by
  obtain ⟨hnone, rfl⟩ := decode_error_iff.mp h
  exact outcomeOf_of_decodeOp_none hnone

/-- Only a defined request is answered, and with R80's result. -/
theorem outcomeOf_eq_responded_iff {r : Bits64} :
    outcomeOf q = .responded r ↔ ∃ i, decode q = .ok i ∧ r = approx {} i.dir i.prec i.nr q.y := by
  cases hd : decode q with
  | ok i => simp [outcomeOf_of_decode_ok hd, eq_comm]
  | error why => simp [outcomeOf_of_decode_error hd]

/-- Only a reserved word is refused, and by its name. -/
theorem outcomeOf_isRefusal_iff : (outcomeOf q).isRefusal = true ↔ decode q = .error (.reservedOp q.op) := by
  cases hd : decode q with
  | ok i => simp [outcomeOf_of_decode_ok hd, ReqOutcome.isRefusal]
  | error why =>
    obtain ⟨-, rfl⟩ := decode_error_iff.mp hd
    simp [outcomeOf_of_decode_error hd, ReqOutcome.isRefusal]

/-! ### What a step can do -/

/-- The response bus is without a value exactly after a refusal. -/
@[simp] theorem State.answer_rBus_eq_none (o : ReqOutcome) (s : State) :
    (s.answer o).rBus = none ↔ o.isRefusal = true := by
  cases o <;> simp [State.answer, ReqOutcome.isRefusal]

theorem exists_complete (s : State) : ∃ t, complete s = .next t := by
  obtain hidle | ⟨q, hp⟩ := s.idle_or_pending
  · exact ⟨_, complete_idle hidle⟩
  · exact ⟨_, complete_pending hp⟩

/-- R140: whatever the next interaction is, there is a next state. -/
theorem exists_step (s : State) : ∃ t, step s = .next t := by
  unfold step turn
  split
  next => exact exists_complete s
  next =>
    split
    next => exact ⟨_, rfl⟩
    next => exact exists_complete s
  next => exact exists_complete _
  next => exact ⟨_, rfl⟩
  next => exact ⟨_, rfl⟩

/-- Every step but the completion of a pending request leaves the bus without a value and the mark as it was. -/
theorem step_quiet_or_answer (h : step s = .next t) :
    (t.rBus = none ∧ t.refusalMark = s.refusalMark) ∨
    ∃ q ins, s.pending = some q ∧ t = State.answer (outcomeOf q) { s with inputs := ins } := by
  obtain ⟨q, rest, -, -, rfl⟩ | ⟨ins, -, rfl⟩ | hanswer | ⟨rest, -, rfl⟩ | ⟨rest, -, rfl⟩ := step_cases h
  · exact .inl ⟨rfl, rfl⟩
  · exact .inl ⟨rfl, rfl⟩
  · exact .inr hanswer
  · exact .inl ⟨rfl, rfl⟩
  · exact .inl ⟨rfl, rfl⟩

/-! ### Instances (R150) -/

/-- What the instance at `k` becomes depends on that instance alone: some `t` takes its place in every platform that has the
same instance there. Where there is none, `List.set` changes nothing. -/
theorem exists_stepAt_eq_set (k : ℕ) (p : Platform) :
    ∃ t, ∀ p' : Platform, p'[k]? = p[k]? → stepAt k p' = .next (p'.set k t) := by
  cases hk : p[k]? with
  | none =>
    refine ⟨State.reset, fun p' hk' => ?_⟩
    rw [List.set_eq_of_length_le (List.getElem?_eq_none_iff.mp hk')]
    simp only [stepAt, hk']
  | some s =>
    obtain ⟨t, ht⟩ := exists_step s
    exact ⟨t, fun p' hk' => by simp only [stepAt, hk', ht]⟩

end Sys2Proof.Machine

namespace Sys2Proof.Proofs
open Sys2Proof.Machine

/-- Settles O12: `step` has no branch that answers a fault or a refusal of the model. -/
theorem everyStepGoesOn : Obligations.EveryStepGoesOn := exists_step

/-- Settles O13: the completion gives the request `outcomeOf` of it, which is read off R64's `decode`. -/
theorem requestGetsExactlyOneOutcome : Obligations.RequestGetsExactlyOneOutcome := by
  intro s q rest hp hdue
  refine ⟨_, outcomeOf q, step_answer_of_completionDue hp hdue, State.answer_pending _ _, State.answer_inputs _ _,
    State.answer_observation_of_pending (s := { s with inputs := rest }) hp _, fun hnone => ?refused, fun f hf => ?answered⟩
  case refused =>
    rw [outcomeOf_of_decodeOp_none hnone]
    exact ⟨rfl, rfl⟩
  case answered =>
    rw [outcomeOf_of_decodeOp_some hf]
    exact ⟨rfl, rfl⟩

/-- Settles O20: only a completion can touch the mark, and it adds to it whether the outcome is a refusal. -/
theorem refusalMarkIsKept : Obligations.RefusalMarkIsKept := by
  intro s t h
  obtain ⟨-, hmark⟩ | ⟨q, ins, hp, rfl⟩ := step_quiet_or_answer h
  · rw [hmark]
    exact ⟨id, fun hclear hset => absurd hset (by simp [hclear])⟩
  · rw [State.answer_refusalMark, Bool.or_eq_true]
    refine ⟨.inl, fun hclear hset => ?_⟩
    have hrefused : (outcomeOf q).isRefusal = true := hset.resolve_left (by simp [hclear])
    exact ⟨q, hp, outcomeOf_isRefusal_iff.mp hrefused, State.answer_pending _ _, (State.answer_rBus_eq_none _ _).mpr hrefused⟩

/-- Settles O21: only a completion leaves a value on the bus, and only where the request's outcome is that response. -/
theorem responsesAnswerDefinedRequests : Obligations.ResponsesAnswerDefinedRequests := by
  intro s t r h hr
  obtain ⟨hbus, -⟩ | ⟨q, ins, hp, rfl⟩ := step_quiet_or_answer h
  · rw [hbus] at hr
    cases hr
  · have hout : outcomeOf q = .responded r := (State.answer_rBus_eq_some _ _ _).mp hr
    obtain ⟨i, hd, happrox⟩ := outcomeOf_eq_responded_iff.mp hout
    refine ⟨q, i, hp, hd, happrox, ?_⟩
    rw [State.answer_observation_of_pending (s := { s with inputs := ins }) hp, hout]

/-- Settles O46: each step writes its own place of the list, and reads only that place. -/
theorem instancesAreIndependent : Obligations.InstancesAreIndependent := by
  intro p j k hjk
  obtain ⟨a, ha⟩ := exists_stepAt_eq_set j p
  obtain ⟨b, hb⟩ := exists_stepAt_eq_set k p
  refine ⟨p.set j a, p.set k b, (p.set j a).set k b, ha p rfl, hb p rfl, hb _ (List.getElem?_set_ne hjk), ?_,
    fun l hl => List.getElem?_set_ne hl.symm⟩
  rw [ha _ (List.getElem?_set_ne hjk.symm), List.set_comm _ _ hjk]

/-- Settles O11: every instruction answers R80's result for it, whatever the state. -/
theorem everyOperationResponds : Obligations.EveryOperationResponds := fun i s => ⟨_, exec_eq_responded i s⟩

end Sys2Proof.Proofs
end

section
/-! PROOF. Reset and the end of a request (70_reset_and_hazards.md): what a reset discards (R160), a completion after any
finite delay (R164), and a run that has ended (R165). -/

namespace Sys2Proof.Machine

variable {s : State} {rest : List Interaction}

/-! ### What the next step is, by the interaction at the head of the host's list -/

/-- R160: a reset is taken whether or not a request is pending. -/
theorem step_reset (hi : s.inputs = .reset :: rest) : step s = .next (State.resetBlock { s with inputs := rest }) := by
  simp only [step, turn, hi]

/-- R166: a delay passes, and a pending request stays pending. -/
theorem step_delay (hi : s.inputs = .delay :: rest) : step s = .next (State.quiet { s with inputs := rest }) := by
  simp only [step, turn, hi]

/-- An idle block has nothing to complete. -/
theorem step_completion_of_idle (hi : s.inputs = .completion :: rest) (hp : s.pending = none) :
    step s = .next (State.quiet { s with inputs := rest }) := by
  simp only [step, turn, hi]
  exact complete_idle hp

/-- An idle block stays idle when the host's list is empty. -/
theorem step_nil_of_idle (hi : s.inputs = []) (hp : s.pending = none) : step s = .next s.quiet := by
  simp only [step, turn, hi]
  exact complete_idle hp

/-- On an idle block a reset is a step in which nothing happens. -/
theorem State.resetBlock_of_idle (hp : s.pending = none) : s.resetBlock = s.quiet := by
  rw [State.resetBlock, State.quiet, ← hp]

/-! ### A run that has ended (R165) -/

theorem State.finished_iff : s.finished = true ↔ (∀ x ∈ s.inputs, x.isRequest = false) ∧ s.pending = none := by
  simp [State.finished]

/-- With nothing pending and no request at the head, a step takes one interaction off the list and clears the bus. -/
theorem step_of_idle (hp : s.pending = none) (hreq : ∀ x ∈ s.inputs.head?, x.isRequest = false) :
    step s = .next (State.quiet { s with inputs := s.inputs.tail }) := by
  cases hi : s.inputs with
  | nil => rw [step_nil_of_idle hi hp, List.tail_nil, State.with_inputs_self hi]
  | cons x rest =>
    cases x with
    | request q => simp [hi, Interaction.isRequest] at hreq
    | completion => exact step_completion_of_idle hi hp
    | reset =>
      rw [step_reset hi]
      exact congrArg _ (State.resetBlock_of_idle hp)
    | delay => exact step_delay hi

end Sys2Proof.Machine

namespace Sys2Proof.Proofs
open Sys2Proof.Machine

/-- Settles O43, by induction on the delay: each unit of it leaves the slot and the observation as they are, and then the
completion is due. -/
theorem delayedRequestCompletes : Obligations.DelayedRequestCompletes := by
  intro n s q rest hp hi
  induction n generalizing s with
  | zero =>
    have hcomplete := step_answer_of_completionDue hp (.inr (.inr hi))
    exact ⟨_, run_succ_of_step (M := Sys2Proof.core) 0 hcomplete, State.answer_pending _ _, State.answer_inputs _ _,
      State.answer_observation_of_pending (s := { s with inputs := rest }) hp _⟩
  | succ n ih =>
    have hdelay := step_delay hi
    rw [run_succ_of_step (M := Sys2Proof.core) (n + 1) hdelay]
    exact ih _ hp rfl

/-- Settles O16: a reset is taken in every state, and empties the slot. -/
theorem resetDiscardsPending : Obligations.ResetDiscardsPending := fun _ _ => step_reset

/-- Settles O45: the slot is empty and no request is at the head, so nothing happens; and a tail of a list without requests
has none. -/
theorem finishedRunStaysFinished : Obligations.FinishedRunStaysFinished := by
  intro s h
  obtain ⟨hreq, hp⟩ := State.finished_iff.mp h
  exact ⟨step_of_idle hp fun x hx => hreq x (List.mem_of_mem_head? hx),
    State.finished_iff.mpr ⟨fun x hx => hreq x (List.mem_of_mem_tail hx), hp⟩⟩

end Sys2Proof.Proofs
end
